-- ==== Sys2Proof/Word.lean ====
section
/-! DEFINITION. The block's word and the small named things its rules speak of: line levels, protocols,
code symbols and codewords. Nothing here is an operation of the machine. -/

namespace Sys2Proof

/-- A 32-bit field or register. Read as an `i32` it is `BitVec.toInt` (two's complement), read as a `u32`
it is `BitVec.toNat` (00_scope.md R13). -/
abbrev Word := BitVec 32

/-- A level of the output line OUT (10_state.md R24, 60_exceptions.md R163). `Inhabited` is derived only
because Lean asks for it before it accepts a draw of this type (Config.lean; notes/assumptions/18.md). -/
inductive Level where
  | low
  | high
  deriving DecidableEq, Repr, Inhabited

/-- The two vendor protocols, and no other (00_scope.md R3, 10_state.md R25). -/
inductive Protocol where
  | p1
  | p2
  deriving DecidableEq, Repr

/-- The code symbols `'0'`, `'1'`, `'F'` and the terminator sentinel `TERM` (30_encoding.md R57). -/
inductive Symbol where
  | zero
  | one
  | floating
  | term
  deriving DecidableEq, Repr

/-- A codeword: a finite sequence of symbols, element 0 the earliest transmitted (00_scope.md R14,
20_memory.md R44). -/
abbrev Codeword := List Symbol

end Sys2Proof
end

