-- ==== Sys2Proof/Config.lean ====
section
/-! DEFINITION. The implementation parameters of 00_scope.md R11 (but for the protocol table, which stands with
the waveforms in Machine/Waves.lean) and the free values the spec leaves open. The values are the spec's decisions and
unaudited literals (UNVERIFIED, notes/assumptions/12.md). -/

namespace Sys2Proof

/-- `OUT_OF_RANGE_POLICY`: what a builder does with an input outside its table (42_codeword_builder.md R105). -/
inductive OutOfRangePolicy where
  | preserve
  | reject
  deriving DecidableEq, Repr

/-- `BIN_SCAN`: whether the binary send passes over a terminator or stops at it (43_transmitter.md R131). -/
inductive BinScan where
  | wholeWord
  | stopAtTerm
  deriving DecidableEq, Repr

/-- `REBASELINE_POLICY`: the spec names one value only (43_transmitter.md R116). -/
inductive RebaselinePolicy where
  | onlyIfNonPositive
  deriving DecidableEq, Repr

namespace Config

/-- `DELAY_MAX`: the largest delay the collaborator takes, in microseconds (R11; 41_waveform.md R83). -/
def delayMax : Nat := 2 ^ 32 - 1

/-- `RESET_PROTOCOL` (R11, decision D7). -/
def resetProtocol : Protocol := .p1

/-- `RESET_PULSE_LENGTH` (R11, decision D8). -/
def resetPulseLength : Word := 350#32

/-- `RESET_REPEAT_COUNT` (R11, from the source: "default 0 unless set"). -/
def resetRepeatCount : Word := 0#32

/-- `OUT_OF_RANGE_POLICY` of this hardware (R11, decision D12). -/
def outOfRangePolicy : OutOfRangePolicy := .preserve

/-- `REBASELINE_POLICY` of this hardware (R11, decision D13). -/
def rebaselinePolicy : RebaselinePolicy := .onlyIfNonPositive

/-- `BIN_SCAN` of this hardware (R11, decision D18, conflict C1). -/
def binScan : BinScan := .wholeWord

/-- `ZERO_REPR`: the digits of the value 0 (R11, decision D20). -/
def zeroRepr : Codeword := [.zero]

/-- `CW_MAX`: the most symbols a codeword operand may have, terminator included (R11, decision D21). -/
def cwMax : Nat := 256

/-- `GA_MAX`: the longest scheme-A group address (R11). -/
def gaMax : Nat := 5

/-- `INITIAL_LEVEL`, marked OPEN in R11: the level of OUT at construction. A draw: it has no body, so no proof
can learn its value (R12; notes/assumptions/1.md). -/
opaque initialLevel : Level

/-- The level of OUT after a DISPOSE, which the spec leaves undefined (10_state.md R30; item I7 of
93_implementation_defined.md: any value). A draw, applied to the counter `State.draws`
(notes/assumptions/2.md). -/
opaque releasedLevel : Nat → Level

end Config

end Sys2Proof
end

