-- ==== Sys2Proof/Syntax.lean ====
section
/-! DEFINITION. The commands of the block: one constructor of `Instr` for each row of spec/opcode_table.json
(30_encoding.md R58), its operands already taken apart as R56 and R60 to R63 name them; the packet a command
travels in (R55); the names of the opcodes and of their formats; and the names of the refusals (60_exceptions.md
R160). -/

namespace Sys2Proof

/-- The commands, in the order of the opcode map (30_encoding.md R58). -/
inductive Instr where
  /-- SET_PROTOCOL `PR` -/
  | setProtocol (pr : Protocol)
  /-- SET_PULSE_LENGTH `VAL` (an `i32`) -/
  | setPulseLength (val : Word)
  /-- SET_REPEAT_COUNT `VAL` (an `i32`) -/
  | setRepeatCount (val : Word)
  /-- GET_PROTOCOL -/
  | getProtocol
  /-- GET_PULSE_LENGTH -/
  | getPulseLength
  /-- GET_REPEAT_COUNT -/
  | getRepeatCount
  /-- DISPOSE -/
  | dispose
  /-- TRANSMIT `HU, LU` (each a `u32`) -/
  | transmit (hu lu : Word)
  /-- SEND_SYNC -/
  | sendSync
  /-- SEND_BIT0 -/
  | sendBit0
  /-- SEND_BIT1 -/
  | sendBit1
  /-- SEND_TRI_0 -/
  | sendTri0
  /-- SEND_TRI_1 -/
  | sendTri1
  /-- SEND_TRI_F -/
  | sendTriF
  /-- BUILD_TYPE_A `GA, CH, ST` -/
  | buildTypeA (ga : BitVec 5) (ch : BitVec 3) (st : Bool)
  /-- BUILD_TYPE_B `AD, CH, ST` -/
  | buildTypeB (ad ch : BitVec 3) (st : Bool)
  /-- SWITCH_ON_A `GA, GALEN, DEV` -/
  | switchOnA (ga : BitVec 5) (galen : BitVec 8) (dev : BitVec 3)
  /-- SWITCH_OFF_A `GA, GALEN, DEV` -/
  | switchOffA (ga : BitVec 5) (galen : BitVec 8) (dev : BitVec 3)
  /-- SWITCH_ON_B `AD, CH` -/
  | switchOnB (ad ch : BitVec 3)
  /-- SWITCH_OFF_B `AD, CH` -/
  | switchOffB (ad ch : BitVec 3)
  /-- SEND_TRI_STATE `CW` -/
  | sendTriState (cw : Codeword)
  /-- SEND_BIN `CW` -/
  | sendBin (cw : Codeword)
  /-- DEC_TO_BIN `VALUE, BITLEN` -/
  | decToBin (value : Word) (bitlen : BitVec 8)
  deriving DecidableEq, Repr

/-- A command packet as it stands on the command port (30_encoding.md R55): the opcode, two scalar operands
and the 2-bit symbol codes of the codeword operand, element 0 first. -/
structure Packet where
  op : BitVec 8
  a0 : Word
  a1 : Word
  cw : List (BitVec 2)
  deriving DecidableEq, Repr

/-- The names of the assigned opcodes (30_encoding.md R58). -/
inductive Opcode where
  | setProtocol | setPulseLength | setRepeatCount
  | getProtocol | getPulseLength | getRepeatCount
  | dispose
  | transmit | sendSync | sendBit0 | sendBit1 | sendTri0 | sendTri1 | sendTriF
  | buildTypeA | buildTypeB
  | switchOnA | switchOffA | switchOnB | switchOffB
  | sendTriState | sendBin
  | decToBin
  deriving DecidableEq, Repr

/-- The ten packet formats (30_encoding.md R56). -/
inductive Format where
  | N | P | V | U | BA | BB | SA | SB | C | DB
  deriving DecidableEq, Repr

/-- The refusal reasons, each under the name R160 of 60_exceptions.md gives it. A packet or a command refused
for one of them is answered with status `REFUSED` and changes nothing. -/
inductive RefuseReason where
  /-- The opcode is not in the map (30_encoding.md R64). -/
  | unassignedOpcode
  /-- A bit its format reserves is 1 (R64). -/
  | reservedBitSet
  /-- A codeword in a format that carries none (R64). -/
  | unexpectedCodeword
  /-- A codeword of more than `CW_MAX` symbols (R64). -/
  | codewordTooLong
  /-- A group-address bit at or above a `GALEN` of at most 5 is 1 (R64). -/
  | groupAddressBitBeyondLength
  /-- Construction failed (60_exceptions.md R158). -/
  | notConstructed
  /-- The line has been released (43_transmitter.md R136). -/
  | lineDisposed
  /-- A delay of the trace is below 0 or above `DELAY_MAX` (41_waveform.md R83). -/
  | delayOutOfRange
  /-- More binary digits than `BITLEN` (44_binary_converter.md R148). -/
  | valueWiderThanBitLength
  deriving DecidableEq, Repr

end Sys2Proof
end

