-- ==== Sys2Proof/WellFormed.lean ====
section
/-! DEFINITION. Which instructions a packet can carry: the checks of 30_encoding.md R64 that concern operands
and are not already settled by an operand's width. -/

namespace Sys2Proof

/-- A codeword operand has at most `CW_MAX` symbols (30_encoding.md R62). -/
def Codeword.fits (cw : Codeword) : Bool :=
  decide (cw.length ≤ Config.cwMax)

/-- When `GALEN` is at most 5, every bit `GA[i]` with `i >= GALEN` is 0 (30_encoding.md R61). -/
def groupFits (ga : BitVec 5) (galen : BitVec 8) : Bool :=
  decide (Config.gaMax < galen.toNat) ||
    (List.range 5).all fun i => decide (i < galen.toNat) || !ga.getLsbD i

/-- An instruction some packet carries. -/
def Instr.wellFormed : Instr → Bool
  | .setProtocol _ => true
  | .setPulseLength _ => true
  | .setRepeatCount _ => true
  | .getProtocol => true
  | .getPulseLength => true
  | .getRepeatCount => true
  | .dispose => true
  | .transmit _ _ => true
  | .sendSync => true
  | .sendBit0 => true
  | .sendBit1 => true
  | .sendTri0 => true
  | .sendTri1 => true
  | .sendTriF => true
  | .buildTypeA _ _ _ => true
  | .buildTypeB _ _ _ => true
  | .switchOnA ga galen _ => groupFits ga galen
  | .switchOffA ga galen _ => groupFits ga galen
  | .switchOnB _ _ => true
  | .switchOffB _ _ => true
  | .sendTriState cw => Codeword.fits cw
  | .sendBin cw => Codeword.fits cw
  | .decToBin _ _ => true

end Sys2Proof
end

