-- ==== Sys2Proof/Decode.lean ====
section
/-! DEFINITION. The decoder of command packets, total, rejecting by name in the order of 30_encoding.md R64; the
encoder, written from the same tables of the spec; and the codes of symbols, protocols and responses. -/

namespace Sys2Proof

/-! ### Symbol and protocol codes -/

/-- The 2-bit code of a symbol (30_encoding.md R57). -/
def Symbol.code : Symbol → BitVec 2
  | .zero => 0b00#2
  | .one => 0b01#2
  | .floating => 0b10#2
  | .term => 0b11#2

/-- The symbol of a 2-bit code: all four codes are used (30_encoding.md R57). -/
def Symbol.ofCode (c : BitVec 2) : Symbol :=
  if c = 0b00#2 then .zero
  else if c = 0b01#2 then .one
  else if c = 0b10#2 then .floating
  else .term

/-- The value of `PR` and of `cfg.protocol`: 0 = P1, 1 = P2 (30_encoding.md R56; 10_state.md R24). -/
def Protocol.code : Protocol → BitVec 1
  | .p1 => 0#1
  | .p2 => 1#1

/-- The protocol a `PR` bit selects (30_encoding.md R56). -/
def Protocol.ofCode (c : BitVec 1) : Protocol :=
  if c = 0#1 then .p1 else .p2

/-! ### The opcode map and the formats -/

/-- The opcode map (30_encoding.md R58). -/
def Opcode.code : Opcode → BitVec 8
  | .setProtocol => 0x01#8
  | .setPulseLength => 0x02#8
  | .setRepeatCount => 0x03#8
  | .getProtocol => 0x04#8
  | .getPulseLength => 0x05#8
  | .getRepeatCount => 0x06#8
  | .dispose => 0x0F#8
  | .transmit => 0x10#8
  | .sendSync => 0x11#8
  | .sendBit0 => 0x12#8
  | .sendBit1 => 0x13#8
  | .sendTri0 => 0x14#8
  | .sendTri1 => 0x15#8
  | .sendTriF => 0x16#8
  | .buildTypeA => 0x20#8
  | .buildTypeB => 0x21#8
  | .switchOnA => 0x30#8
  | .switchOffA => 0x31#8
  | .switchOnB => 0x32#8
  | .switchOffB => 0x33#8
  | .sendTriState => 0x34#8
  | .sendBin => 0x35#8
  | .decToBin => 0x40#8

/-- Every assigned opcode, in the order of 30_encoding.md R58. -/
def Opcode.all : List Opcode :=
  [.setProtocol, .setPulseLength, .setRepeatCount, .getProtocol, .getPulseLength, .getRepeatCount, .dispose,
   .transmit, .sendSync, .sendBit0, .sendBit1, .sendTri0, .sendTri1, .sendTriF, .buildTypeA, .buildTypeB,
   .switchOnA, .switchOffA, .switchOnB, .switchOffB, .sendTriState, .sendBin, .decToBin]

/-- The assigned opcode with the value `OP`, if there is one; every other value is unassigned
(30_encoding.md R59). -/
def Opcode.ofCode (op : BitVec 8) : Option Opcode :=
  Opcode.all.find? fun o => o.code == op

/-- The format of each opcode (30_encoding.md R56, column "used by"). -/
def Opcode.format : Opcode → Format
  | .setProtocol => .P
  | .setPulseLength => .V
  | .setRepeatCount => .V
  | .getProtocol => .N
  | .getPulseLength => .N
  | .getRepeatCount => .N
  | .dispose => .N
  | .transmit => .U
  | .sendSync => .N
  | .sendBit0 => .N
  | .sendBit1 => .N
  | .sendTri0 => .N
  | .sendTri1 => .N
  | .sendTriF => .N
  | .buildTypeA => .BA
  | .buildTypeB => .BB
  | .switchOnA => .SA
  | .switchOffA => .SA
  | .switchOnB => .SB
  | .switchOffB => .SB
  | .sendTriState => .C
  | .sendBin => .C
  | .decToBin => .DB

/-- The bits of `A0` a format reserves: those its row of 30_encoding.md R56 does not name. -/
def Format.reservedA0 : Format → Word
  | .N => 0xFFFFFFFF#32
  | .P => 0xFFFFFFFE#32
  | .V => 0x00000000#32
  | .U => 0x00000000#32
  | .BA => 0xFFFFFFE0#32
  | .BB => 0xFFFFFFF8#32
  | .SA => 0xFFFF00E0#32
  | .SB => 0xFFFFFFF8#32
  | .C => 0xFFFFFFFF#32
  | .DB => 0x00000000#32

/-- The bits of `A1` a format reserves: those its row of 30_encoding.md R56 does not name. -/
def Format.reservedA1 : Format → Word
  | .N => 0xFFFFFFFF#32
  | .P => 0xFFFFFFFF#32
  | .V => 0xFFFFFFFF#32
  | .U => 0x00000000#32
  | .BA => 0xFFFFFEF8#32
  | .BB => 0xFFFFFEF8#32
  | .SA => 0xFFFFFFF8#32
  | .SB => 0xFFFFFFF8#32
  | .C => 0xFFFFFFFF#32
  | .DB => 0xFFFFFF00#32

/-! ### The fields of a packet (30_encoding.md R56, R60) -/

/-- `PR = A0[0]`. -/
def Packet.pr (p : Packet) : BitVec 1 := p.a0.extractLsb' 0 1
/-- `GA = A0[4:0]`. -/
def Packet.ga (p : Packet) : BitVec 5 := p.a0.extractLsb' 0 5
/-- `AD = A0[2:0]`. -/
def Packet.ad (p : Packet) : BitVec 3 := p.a0.extractLsb' 0 3
/-- `GALEN = A0[15:8]`. -/
def Packet.galen (p : Packet) : BitVec 8 := p.a0.extractLsb' 8 8
/-- `CH = A1[2:0]`; in format SA the same bits are `DEV`. -/
def Packet.ch (p : Packet) : BitVec 3 := p.a1.extractLsb' 0 3
/-- `ST = A1[8]`. -/
def Packet.st (p : Packet) : Bool := p.a1.getLsbD 8
/-- `BITLEN = A1[7:0]`. -/
def Packet.bitlen (p : Packet) : BitVec 8 := p.a1.extractLsb' 0 8
/-- The codeword operand, its codes read by 30_encoding.md R57. -/
def Packet.symbols (p : Packet) : Codeword := p.cw.map Symbol.ofCode

/-- The command an opcode makes of the fields of its packet (30_encoding.md R58, R60). -/
def Opcode.build (o : Opcode) (p : Packet) : Instr :=
  match o with
  | .setProtocol => .setProtocol (Protocol.ofCode p.pr)
  | .setPulseLength => .setPulseLength p.a0
  | .setRepeatCount => .setRepeatCount p.a0
  | .getProtocol => .getProtocol
  | .getPulseLength => .getPulseLength
  | .getRepeatCount => .getRepeatCount
  | .dispose => .dispose
  | .transmit => .transmit p.a0 p.a1
  | .sendSync => .sendSync
  | .sendBit0 => .sendBit0
  | .sendBit1 => .sendBit1
  | .sendTri0 => .sendTri0
  | .sendTri1 => .sendTri1
  | .sendTriF => .sendTriF
  | .buildTypeA => .buildTypeA p.ga p.ch p.st
  | .buildTypeB => .buildTypeB p.ad p.ch p.st
  | .switchOnA => .switchOnA p.ga p.galen p.ch
  | .switchOffA => .switchOffA p.ga p.galen p.ch
  | .switchOnB => .switchOnB p.ad p.ch
  | .switchOffB => .switchOffB p.ad p.ch
  | .sendTriState => .sendTriState p.symbols
  | .sendBin => .sendBin p.symbols
  | .decToBin => .decToBin p.a0 p.bitlen

/-- `GALEN <= 5` and a group-address bit with an index from `GALEN` to 4 is 1 (30_encoding.md R64). -/
def strayGroupBit (ga : BitVec 5) (galen : BitVec 8) : Bool :=
  decide (galen.toNat ≤ Config.gaMax) &&
    (List.range 5).any fun i => decide (galen.toNat ≤ i) && ga.getLsbD i

/-- The decoder (30_encoding.md R64): every packet is a command or a named refusal, the checks in the order
the rule lists them. -/
def decode (p : Packet) : Except RefuseReason Instr :=
  match Opcode.ofCode p.op with
  | none => .error .unassignedOpcode
  | some o =>
    if p.a0 &&& o.format.reservedA0 ≠ 0#32 ∨ p.a1 &&& o.format.reservedA1 ≠ 0#32 then .error .reservedBitSet
    else if o.format ≠ .C ∧ p.cw ≠ [] then .error .unexpectedCodeword
    else if Config.cwMax < p.cw.length then .error .codewordTooLong
    else if o.format = .SA ∧ strayGroupBit p.ga p.galen = true then .error .groupAddressBitBeyondLength
    else .ok (o.build p)

/-! ### A packet as one number -/

/-- The packet that a number of `nbits` bits spells: `OP` in bits 7..0 (30_encoding.md R58's table column
`packet[7:0]`), then `A0`, then `A1`, then the codeword's 2-bit codes, element 0 lowest. The spec fixes the
place of `OP` only; the rest of this layout is a DESIGN CHOICE (notes/assumptions/3.md). A number too short to
hold a field spells zeros there and an empty codeword. -/
def packetOfWord (nbits w : Nat) : Packet :=
  let v := w % 2 ^ nbits
  { op := BitVec.ofNat 8 v
    a0 := BitVec.ofNat 32 (v / 2 ^ 8)
    a1 := BitVec.ofNat 32 (v / 2 ^ 40)
    cw := (List.range ((nbits - 72) / 2)).map fun j => BitVec.ofNat 2 (v / 2 ^ (72 + 2 * j)) }

/-- The instruction the decoder reads from a packet of `nbits` bits whose number is `w`. -/
def decodeTableWord (nbits w : Nat) : Option Instr :=
  match decode (packetOfWord nbits w) with
  | .ok i => some i
  | .error _ => none

/-! ### The encoder -/

/-- The opcode of a command (30_encoding.md R58). -/
def Instr.opcode : Instr → Opcode
  | .setProtocol _ => .setProtocol
  | .setPulseLength _ => .setPulseLength
  | .setRepeatCount _ => .setRepeatCount
  | .getProtocol => .getProtocol
  | .getPulseLength => .getPulseLength
  | .getRepeatCount => .getRepeatCount
  | .dispose => .dispose
  | .transmit _ _ => .transmit
  | .sendSync => .sendSync
  | .sendBit0 => .sendBit0
  | .sendBit1 => .sendBit1
  | .sendTri0 => .sendTri0
  | .sendTri1 => .sendTri1
  | .sendTriF => .sendTriF
  | .buildTypeA _ _ _ => .buildTypeA
  | .buildTypeB _ _ _ => .buildTypeB
  | .switchOnA _ _ _ => .switchOnA
  | .switchOffA _ _ _ => .switchOffA
  | .switchOnB _ _ => .switchOnB
  | .switchOffB _ _ => .switchOffB
  | .sendTriState _ => .sendTriState
  | .sendBin _ => .sendBin
  | .decToBin _ _ => .decToBin

/-- `ST` at bit 8 above `CH` at bits 2..0 (30_encoding.md R56, formats BA and BB). -/
def packChannel (ch : BitVec 3) (st : Bool) : Word :=
  ch.setWidth 32 ||| ((BitVec.ofBool st).setWidth 32 <<< 8)

/-- `GALEN` at bits 15..8 above `GA` at bits 4..0 (30_encoding.md R56, format SA). -/
def packGroup (ga : BitVec 5) (galen : BitVec 8) : Word :=
  ga.setWidth 32 ||| (galen.setWidth 32 <<< 8)

/-- `A0` of a command's packet (30_encoding.md R56). -/
def Instr.encodeA0 : Instr → Word
  | .setProtocol pr => pr.code.setWidth 32
  | .setPulseLength val => val
  | .setRepeatCount val => val
  | .transmit hu _ => hu
  | .buildTypeA ga _ _ => ga.setWidth 32
  | .buildTypeB ad _ _ => ad.setWidth 32
  | .switchOnA ga galen _ => packGroup ga galen
  | .switchOffA ga galen _ => packGroup ga galen
  | .switchOnB ad _ => ad.setWidth 32
  | .switchOffB ad _ => ad.setWidth 32
  | .decToBin value _ => value
  | .getProtocol | .getPulseLength | .getRepeatCount | .dispose | .sendSync | .sendBit0 | .sendBit1 | .sendTri0
  | .sendTri1 | .sendTriF | .sendTriState _ | .sendBin _ => 0#32

/-- `A1` of a command's packet (30_encoding.md R56). -/
def Instr.encodeA1 : Instr → Word
  | .transmit _ lu => lu
  | .buildTypeA _ ch st => packChannel ch st
  | .buildTypeB _ ch st => packChannel ch st
  | .switchOnA _ _ dev => dev.setWidth 32
  | .switchOffA _ _ dev => dev.setWidth 32
  | .switchOnB _ ch => ch.setWidth 32
  | .switchOffB _ ch => ch.setWidth 32
  | .decToBin _ bitlen => bitlen.setWidth 32
  | .setProtocol _ | .setPulseLength _ | .setRepeatCount _ | .getProtocol | .getPulseLength | .getRepeatCount
  | .dispose | .sendSync | .sendBit0 | .sendBit1 | .sendTri0 | .sendTri1 | .sendTriF | .sendTriState _
  | .sendBin _ => 0#32

/-- The codeword operand of a command, empty in every format but `C` (30_encoding.md R56). -/
def Instr.codeword : Instr → Codeword
  | .sendTriState cw => cw
  | .sendBin cw => cw
  | .setProtocol _ | .setPulseLength _ | .setRepeatCount _ | .getProtocol | .getPulseLength | .getRepeatCount
  | .dispose | .transmit _ _ | .sendSync | .sendBit0 | .sendBit1 | .sendTri0 | .sendTri1 | .sendTriF
  | .buildTypeA _ _ _ | .buildTypeB _ _ _ | .switchOnA _ _ _ | .switchOffA _ _ _ | .switchOnB _ _
  | .switchOffB _ _ | .decToBin _ _ => []

/-- The packet of a command (30_encoding.md R55, R56, R58). -/
def encode (i : Instr) : Packet :=
  { op := i.opcode.code, a0 := i.encodeA0, a1 := i.encodeA1, cw := i.codeword.map Symbol.code }

end Sys2Proof
end

