-- ==== Sys2Proof/Machine/State.lean ====
section
/-! DEFINITION. Everything the spec gives the block to hold (10_state.md R24, R34), what it exchanges with the
issuer and the two collaborators (30_encoding.md R55; 00_scope.md R16), the ways a step can stop, and the state
after construction (10_state.md R33). -/

namespace Sys2Proof.Machine

/-- The lifecycle of the block (10_state.md R28). -/
inductive Life where
  | unconfigured
  | active
  | disposed
  deriving DecidableEq, Repr

/-- The status of a command (60_exceptions.md R155). `refused` is the one status `REFUSED` (code 7) of the
port; it keeps the name of the refusal beside it (30_encoding.md R64: each reason is a distinct name a model
keeps). The reserved codes 4, 5 and 6 have no constructor: they are never returned. -/
inductive Status where
  | ok
  | invalidConfiguration
  | invalidAddress
  | invalidArgument
  | refused (why : RefuseReason)
  deriving DecidableEq, Repr

/-- The response to one command (30_encoding.md R55, R69). -/
structure Answer where
  status : Status
  result : Word
  rcw : Codeword
  deriving DecidableEq, Repr

/-- One effect of a command (00_scope.md R16): `emit W(level)`, `emit D(n)` with `n` in nominal
microseconds (notes/assumptions/13.md), `emit X`. -/
inductive Effect where
  | write (level : Level)
  | delay (micros : Nat)
  | release
  deriving DecidableEq, Repr

/-- One call `T(h, l)` of the transmit primitive, in units (41_waveform.md R82). -/
structure Transmit where
  high : Nat
  low : Nat
  deriving DecidableEq, Repr

/-- What a waveform command transmits: the waveform of one of the commands of 41_waveform.md, once; or a
codeword through the tri-state or the binary sequencer (43_transmitter.md R129, R131). -/
inductive Job where
  | waveform (w : List Transmit)
  | triState (cw : Codeword)
  | binary (cw : Codeword)
  deriving DecidableEq, Repr

/-- The hidden sequencer state of a command in flight (10_state.md R34): the repeat index `k`, the symbol index
`i` and the position within the current symbol's waveform; with what the command holds while it runs, its job
(the codeword: 20_memory.md R42) and the values of `cfg.protocol`, `cfg.pulse` and the number of passes, read
once at its start (R49; DEDUCED, notes/assumptions/11.md). -/
structure Flight where
  job : Job
  protocol : Protocol
  pulse : Word
  passes : Nat
  k : Nat
  i : Nat
  pos : Nat
  deriving DecidableEq, Repr

/-- The state. From the spec: `protocol`, `pulse` and `repeatCount` are `cfg.protocol`, `cfg.pulse` and
`cfg.repeat`, `life`, `out` and `busy` are as named in 10_state.md R24, and `flight` is the hidden sequencer
state of R34. At the ports (60_exceptions.md R175, R176; R162, R163): `pending` are the packets the issuer has
yet to issue, in order; `answers` the responses given so far and `trace` the effects emitted so far, both oldest
first (DESIGN CHOICE, notes/assumptions/15.md). `draws` is the model's own counter of free values (notes/assumptions/2.md). -/
structure State where
  protocol : Protocol
  pulse : Word
  repeatCount : Word
  life : Life
  out : Level
  busy : Bool
  flight : Option Flight
  pending : List Packet
  answers : List Answer
  trace : List Effect
  draws : Nat
  deriving DecidableEq, Repr

/-- Why a step can stop for good. No command raises one. -/
inductive Fault where
  /-- Raised by `step` in a state with `busy = 1` and no command in flight, which contradicts 10_state.md R29.
  Safe: no step leads to such a state from one that keeps `Sys2Proof.Machine.Inv` (notes/assumptions/10.md). -/
  | commandLost
  deriving DecidableEq, Repr

/-- Why an instruction can have no meaning in the model. (What the spec calls a refusal of the block is an
answer, `Status.refused`: notes/assumptions/4.md.) -/
inductive Refusal where
  /-- Raised by the arms of `exec` for instructions not modelled yet; none is left. Safe. -/
  | notModelled (mnemonic : String)
  deriving DecidableEq, Repr

/-- The state right after a successful construction (10_state.md R33; 70_reset_and_hazards.md R180), with no
packet issued, nothing answered and nothing emitted. The level of OUT is a draw. -/
def State.reset : State where
  protocol := Config.resetProtocol
  pulse := Config.resetPulseLength
  repeatCount := Config.resetRepeatCount
  life := .active
  out := Config.initialLevel
  busy := false
  flight := none
  pending := []
  answers := []
  trace := []
  draws := 0

end Sys2Proof.Machine
end

