-- ==== Sys2Proof/Machine/Operands.lean ====
section
/-! DEFINITION. How a command reads its operands (30_encoding.md R60 to R63). -/

namespace Sys2Proof.Machine

/-- `VAL` and the registers `cfg.pulse` and `cfg.repeat` as an `i32` (30_encoding.md R60). -/
def asI32 (w : Word) : Int := w.toInt

/-- `HU`, `LU` and `VALUE` as a `u32` (30_encoding.md R60). -/
def asU32 (w : Word) : Nat := w.toNat

/-- `GALEN` exceeds `GA_MAX` (60_exceptions.md R157). -/
def groupTooLong (galen : BitVec 8) : Bool := decide (Config.gaMax < galen.toNat)

/-- `DEV = 0` is `None` (30_encoding.md R63). -/
def deviceIsNone (dev : BitVec 3) : Bool := decide (dev.toNat = 0)

/-- A scheme-A channel or device number is in range from 1 to 5 (30_encoding.md R63). -/
def inRangeA (ch : BitVec 3) : Bool := decide (1 ≤ ch.toNat ∧ ch.toNat ≤ 5)

/-- A scheme-B address or channel code is in range from 1 to 4 (30_encoding.md R63). -/
def inRangeB (code : BitVec 3) : Bool := decide (1 ≤ code.toNat ∧ code.toNat ≤ 4)

/-- The symbols of a codeword operand before its first `TERM`, or all of them if it has none (43_transmitter.md
R129). -/
def beforeTerm : Codeword → Codeword
  | [] => []
  | s :: cw => if s = .term then [] else s :: beforeTerm cw

end Sys2Proof.Machine
end

