-- ==== Sys2Proof/Machine/Waves.lean ====
section
/-! DEFINITION. The protocol table, the waveform functions and the traces they stand for (41_waveform.md R80 to
R83, R93; 43_transmitter.md R129, R131). All of it is pure: the effects happen in Machine/Ops.lean. -/

namespace Sys2Proof.Machine

/-- One row of the protocol table (41_waveform.md R80). -/
structure ProtocolRow where
  defaultPulse : Word
  sync : Transmit
  bit0 : Transmit
  bit1 : Transmit
  deriving DecidableEq, Repr

/-- The protocol table, a constant of the hardware (41_waveform.md R80). -/
def protoTable : Protocol → ProtocolRow
  | .p1 => { defaultPulse := 350#32, sync := ⟨1, 31⟩, bit0 := ⟨1, 3⟩, bit1 := ⟨3, 1⟩ }
  | .p2 => { defaultPulse := 650#32, sync := ⟨1, 10⟩, bit0 := ⟨1, 2⟩, bit1 := ⟨2, 1⟩ }

/-- `wave_sync` (41_waveform.md R93). -/
def waveSync (p : Protocol) : List Transmit := [(protoTable p).sync]

/-- `wave_bit(0)` (41_waveform.md R93). -/
def waveBit0 (p : Protocol) : List Transmit := [(protoTable p).bit0]

/-- `wave_bit(1)` (41_waveform.md R93). -/
def waveBit1 (p : Protocol) : List Transmit := [(protoTable p).bit1]

/-- `wave_tri(0)` (41_waveform.md R93): the same under both protocols (R92). -/
def waveTri0 : List Transmit := [⟨1, 3⟩, ⟨1, 3⟩]

/-- `wave_tri(1)` (41_waveform.md R93, R92). -/
def waveTri1 : List Transmit := [⟨3, 1⟩, ⟨3, 1⟩]

/-- `wave_tri(F)` (41_waveform.md R93, R92). -/
def waveTriF : List Transmit := [⟨1, 3⟩, ⟨3, 1⟩]

/-- The waveform the tri-state sequencer sends for a symbol. It never reads a `TERM` (43_transmitter.md R129). -/
def waveTri : Symbol → List Transmit
  | .zero => waveTri0
  | .one => waveTri1
  | .floating => waveTriF
  | .term => []

/-- The waveform the binary sequencer sends for a symbol: none for `F` and for `TERM` (43_transmitter.md R131). -/
def waveBin (p : Protocol) : Symbol → List Transmit
  | .zero => waveBit0 p
  | .one => waveBit1 p
  | .floating => []
  | .term => []

/-- The symbols the binary sequencer visits (43_transmitter.md R131): all of them under `WholeWord`, those before
the first `TERM` under `StopAtTerm`. -/
def scanned (scan : BinScan) (cw : Codeword) : Codeword :=
  match scan with
  | .wholeWord => cw
  | .stopAtTerm => beforeTerm cw

/-- The waveforms of one pass of the tri-state sequencer: one for each symbol, then the sync (43_transmitter.md
R129). -/
def triPass (p : Protocol) (cw : Codeword) : List (List Transmit) :=
  (beforeTerm cw).map waveTri ++ [waveSync p]

/-- The waveforms of one pass of the binary sequencer: one, perhaps empty, for each symbol visited, then the sync
(43_transmitter.md R131). -/
def binPass (scan : BinScan) (p : Protocol) (cw : Codeword) : List (List Transmit) :=
  (scanned scan cw).map (waveBin p) ++ [waveSync p]

/-- The waveforms of one pass of a job, in order. -/
def Job.pass (p : Protocol) : Job → List (List Transmit)
  | .waveform w => [w]
  | .triState cw => triPass p cw
  | .binary cw => binPass Config.binScan p cw

/-- Every `T` call of a job repeated for a number of passes: `seq_tri` and `seq_bin` (43_transmitter.md R129,
R131) before the calls are expanded into effects. -/
def Job.plan (p : Protocol) (passes : Nat) (j : Job) : List Transmit :=
  (List.replicate passes (j.pass p).flatten).flatten

/-- The delay of `u` units, `p * u`, on mathematical integers (41_waveform.md R82, R83). -/
def delayOf (pulse : Word) (u : Nat) : Int := asI32 pulse * u

/-- `0 <= n <= DELAY_MAX` (41_waveform.md R83). -/
def delayInRange (n : Int) : Bool := decide (0 ≤ n ∧ n ≤ Config.delayMax)

/-- Both delays of a `T` call are in range (41_waveform.md R83). -/
def Transmit.inRange (pulse : Word) (t : Transmit) : Bool :=
  delayInRange (delayOf pulse t.high) && delayInRange (delayOf pulse t.low)

/-- The four effects of `T(h, l)` (41_waveform.md R82). The delays are taken as naturals, which loses nothing when
they are in range, and no command emits one that is not. -/
def Transmit.effects (pulse : Word) (t : Transmit) : List Effect :=
  [.write .high, .delay (delayOf pulse t.high).toNat, .write .low, .delay (delayOf pulse t.low).toNat]

/-- The effects of a list of `T` calls, in order (41_waveform.md R93). -/
def waveEffects (pulse : Word) (w : List Transmit) : List Effect :=
  w.flatMap (Transmit.effects pulse)

/-- The nominal duration of a trace in microseconds (70_reset_and_hazards.md R189). -/
def nominal : List Effect → Nat
  | [] => 0
  | .write _ :: tr => nominal tr
  | .delay n :: tr => n + nominal tr
  | .release :: tr => nominal tr

/-- The number of line writes of a trace (43_transmitter.md R137). -/
def lineWrites (tr : List Effect) : Nat :=
  tr.countP fun e => match e with
    | .write _ => true
    | .delay _ => false
    | .release => false

/-- The number of delay requests of a trace (43_transmitter.md R137). -/
def delayRequests (tr : List Effect) : Nat :=
  tr.countP fun e => match e with
    | .write _ => false
    | .delay _ => true
    | .release => false

end Sys2Proof.Machine
end

