-- ==== Sys2Proof/Machine/Ops.lean ====
section
/-! DEFINITION. The operations the commands share: emitting an effect, answering, refusing, the lifecycle checks,
the sequencer, performing a job, releasing the line and constructing the block. -/

namespace Sys2Proof.Machine

/-- How a command ends: the outcomes of Host/Core.lean over this machine. -/
abbrev Result := Host.Outcome State Fault Refusal

/-! ### Effects -/

/-- The level of OUT after an effect: a write sets it (41_waveform.md R82), nothing else does. -/
def Effect.levelAfter (before : Level) : Effect → Level
  | .write level => level
  | .delay _ => before
  | .release => before

/-- `emit e` (00_scope.md R16): the effect joins the trace, and a write also sets `out` (41_waveform.md R82). -/
def State.emit (s : State) (e : Effect) : State :=
  { s with trace := s.trace ++ [e], out := e.levelAfter s.out }

/-- The level of OUT after a list of effects. -/
def levelAfterAll (before : Level) (es : List Effect) : Level :=
  es.foldl Effect.levelAfter before

/-- `emit` for each effect of a list, in order. -/
def State.emitAll (s : State) (es : List Effect) : State :=
  { s with trace := s.trace ++ es, out := levelAfterAll s.out es }

/-! ### Accepting and answering a command -/

/-- The acceptance of the next packet: the port holds the issuer until the status is returned (10_state.md
R29). -/
def State.accept (s : State) (rest : List Packet) : State :=
  { s with pending := rest, busy := true }

/-- The end of a command: its one response goes to the issuer, the block is idle again, and no sequencer state
survives (30_encoding.md R55; 60_exceptions.md R155, R166; 10_state.md R29, R34). -/
def State.answer (s : State) (a : Answer) : State :=
  { s with busy := false, flight := none, answers := s.answers ++ [a] }

/-- `return (OK, 0)`. -/
def State.answerOk (s : State) : State :=
  s.answer { status := .ok, result := 0#32, rcw := [] }

/-- `return (OK, RESULT = v)` (30_encoding.md R69). -/
def State.answerValue (s : State) (v : Word) : State :=
  s.answer { status := .ok, result := v, rcw := [] }

/-- `return (OK, RCW = cw)` (30_encoding.md R69). -/
def State.answerCodeword (s : State) (cw : Codeword) : State :=
  s.answer { status := .ok, result := 0#32, rcw := cw }

/-- `raise E()` (00_scope.md R17) and a refusal of the block (60_exceptions.md R160), the shared operation of
every failure: the status goes back to the issuer with `RESULT = 0` and an empty `RCW` (30_encoding.md R69), the
block returns to idle, and nothing else changes; there is no handler to go to (60_exceptions.md R165 to
R167). -/
def State.fail (s : State) (status : Status) : State :=
  s.answer { status := status, result := 0#32, rcw := [] }

/-- The block answers `REFUSED` (60_exceptions.md R160; notes/assumptions/4.md). -/
def State.refuse (s : State) (why : RefuseReason) : State :=
  s.fail (.refused why)

/-! ### The lifecycle checks -/

/-- `check life != UNCONFIGURED` (60_exceptions.md R158). -/
def whenConstructed (s : State) (k : Result) : Result :=
  match s.life with
  | .unconfigured => .next (s.refuse .notConstructed)
  | .active => k
  | .disposed => k

/-- `check life = ACTIVE` (41_waveform.md R81; 43_transmitter.md R136). -/
def whenActive (s : State) (k : Result) : Result :=
  match s.life with
  | .unconfigured => .next (s.refuse .notConstructed)
  | .active => k
  | .disposed => .next (s.refuse .lineDisposed)

/-! ### The sequencer (10_state.md R34) -/

/-- The sequencer at its start: pass 0, symbol 0, position 0, with `cfg.protocol` and `cfg.pulse` read now
(20_memory.md R49). -/
def State.launch (s : State) (j : Job) (passes : Nat) : Flight :=
  { job := j, protocol := s.protocol, pulse := s.pulse, passes := passes, k := 0, i := 0, pos := 0 }

/-- The command in flight is `f`, and the port holds the issuer (10_state.md R29). -/
def State.fly (s : State) (f : Flight) : State :=
  { s with busy := true, flight := some f }

/-- The effects of the waveform the sequencer stands in, if it has not passed the end of the pass. -/
def Flight.waveHere (f : Flight) : Option (List Effect) :=
  (f.job.pass f.protocol)[f.i]?.map (waveEffects f.pulse)

/-- One move of the sequencer: it emits the effect at its position; or, at the end of a waveform, goes on to the
next symbol (the sync is the last waveform of a pass); or, at the end of a pass, to the next pass; or, after the
last pass, returns `(OK, 0)` (43_transmitter.md R129, R131). How a pass is cut into moves is a DESIGN CHOICE
(notes/assumptions/5.md). -/
def advance (f : Flight) (s : State) : State :=
  if f.k < f.passes then
    match f.waveHere with
    | some es =>
      match es[f.pos]? with
      | some e => (s.emit e).fly { f with pos := f.pos + 1 }
      | none => s.fly { f with i := f.i + 1, pos := 0 }
    | none => s.fly { f with k := f.k + 1, i := 0, pos := 0 }
  else s.answerOk

/-- At most `n` moves of the sequencer, until the command in flight has ended. -/
def drive : Nat → State → State
  | 0, s => s
  | n + 1, s =>
    match s.flight with
    | none => s
    | some f => drive n (advance f s)

/-- The moves of one pass: one for each effect, one to leave each waveform and one to leave the pass. -/
def passMoves (pulse : Word) (pass : List (List Transmit)) : Nat :=
  (pass.map fun w => (waveEffects pulse w).length + 1).sum + 1

/-- The moves a job takes from its launch to its answer. -/
def jobMoves (f : Flight) : Nat :=
  f.passes * passMoves f.pulse (f.job.pass f.protocol) + 1

/-- Every delay the job's trace would contain is in range (41_waveform.md R83). -/
def State.delaysInRange (s : State) (j : Job) (passes : Nat) : Bool :=
  (j.plan s.protocol passes).all (Transmit.inRange s.pulse)

/-- Performing a job: refused whole, before its first effect, if a delay of its trace is out of range
(41_waveform.md R83; 60_exceptions.md R165); else the sequencer runs from its launch until the command has been
answered, within the one command (20_memory.md R49, R51). -/
def perform (j : Job) (passes : Nat) (s : State) : Result :=
  if s.delaysInRange j passes then .next (drive (jobMoves (s.launch j passes)) (s.fly (s.launch j passes)))
  else .next (s.refuse .delayOutOfRange)

/-- `cfg.repeat` as a number of passes. A codeword job makes `cfg.repeat` passes, none when it is 0; the register
is never negative (10_state.md R27), and a negative one would make no pass in the loop of 43_transmitter.md
R129 (DEDUCED, notes/assumptions/16.md). -/
def State.passes (s : State) : Nat := (asI32 s.repeatCount).toNat

/-! ### Configuration writes -/

/-- `cfg.protocol <- p` with the re-baseline of 43_transmitter.md R115 and R116: the test reads `cfg.pulse` as it is
before the write. -/
def State.assignProtocol (policy : RebaselinePolicy) (p : Protocol) (s : State) : State :=
  match policy with
  | .onlyIfNonPositive =>
    if asI32 s.pulse ≤ 0 then { s with protocol := p, pulse := (protoTable p).defaultPulse }
    else { s with protocol := p }

/-! ### The end and the beginning of the block -/

/-- The one `dispose()` of the output line: `emit X`, `life <- DISPOSED` (43_transmitter.md R135). The level of OUT
is a free value from here on (10_state.md R30; notes/assumptions/2.md). -/
def State.releaseLine (s : State) : State :=
  { s with
    life := .disposed
    trace := s.trace ++ [.release]
    out := Config.releasedLevel s.draws
    draws := s.draws + 1 }

/-- The two facts about the output line that construction reads (70_reset_and_hazards.md R180). -/
structure LineFacts where
  present : Bool
  outputMode : Bool
  deriving DecidableEq, Repr

/-- Construction, the block's only reset, on a line and a block that holds `before` (70_reset_and_hazards.md R180,
R181): its status, and what the block then holds. It emits no effect and `out` keeps its level. Where it fails, the
configuration keeps what it held and the port is idle, so that it can answer every command with a refusal
(notes/assumptions/7.md). -/
def construct (line : LineFacts) (before : State) : Status × State :=
  if line.present && line.outputMode then
    (.ok, { before with
      protocol := Config.resetProtocol
      pulse := Config.resetPulseLength
      repeatCount := Config.resetRepeatCount
      busy := false
      flight := none
      life := .active })
  else
    (.invalidConfiguration, { before with
      busy := false
      flight := none
      life := .unconfigured })

end Sys2Proof.Machine
end

