-- ==== Sys2Proof/Machine/Converter.lean ====
section
/-! DEFINITION. The Binary Converter (44_binary_converter.md R145 to R148). -/

namespace Sys2Proof.Machine

/-- The symbol of a binary digit. -/
def digitSymbol (b : Bool) : Symbol := if b then .one else .zero

/-- The 32 bits of a value, most-significant first (20_memory.md R45). -/
def bitsMsbFirst (v : Word) : List Bool :=
  (List.range 32).map fun j => v.getLsbD (31 - j)

/-- A list of bits without its leading zeros. -/
def dropLeadingZeros : List Bool → List Bool
  | [] => []
  | b :: bs => if b then b :: bs else dropLeadingZeros bs

/-- `digits(v)` (44_binary_converter.md R145), with `ZERO_REPR` for the value 0. -/
def digits (v : Word) : Codeword :=
  if v = 0#32 then Config.zeroRepr else (dropLeadingZeros (bitsMsbFirst v)).map digitSymbol

/-- The result of DEC_TO_BIN when the digits fit: filler, digits, terminator, the filler being the terminator
(44_binary_converter.md R146, R147). -/
def zeroFilled (d : Codeword) (bitlen : Nat) : Codeword :=
  List.replicate (bitlen - d.length) Symbol.term ++ d ++ [.term]

/-- DEC_TO_BIN (44_binary_converter.md R146, R148). -/
def execDecToBin (value : Word) (bitlen : BitVec 8) (s : State) : Result :=
  whenConstructed s <|
    if bitlen.toNat < (digits value).length then .next (s.refuse .valueWiderThanBitLength)
    else .next (s.answerCodeword (zeroFilled (digits value) bitlen.toNat))

end Sys2Proof.Machine
end

