-- ==== Sys2Proof/Machine/Settings.lean ====
section
/-! DEFINITION. The configuration commands and the accessors (43_transmitter.md R115 to R122). -/

namespace Sys2Proof.Machine

/-- SET_PROTOCOL (43_transmitter.md R115, R116). -/
def execSetProtocol (pr : Protocol) (s : State) : Result :=
  whenConstructed s <| .next (s.assignProtocol Config.rebaselinePolicy pr).answerOk

/-- SET_PULSE_LENGTH (43_transmitter.md R117): any `i32` is stored. -/
def execSetPulseLength (val : Word) (s : State) : Result :=
  whenConstructed s <| .next { s with pulse := val }.answerOk

/-- SET_REPEAT_COUNT (43_transmitter.md R118, R119): a negative value is an argument error and is not stored. -/
def execSetRepeatCount (val : Word) (s : State) : Result :=
  whenConstructed s <|
    if asI32 val < 0 then .next (s.fail .invalidArgument)
    else .next { s with repeatCount := val }.answerOk

/-- GET_PROTOCOL (43_transmitter.md R120): `zext_32(cfg.protocol)`. -/
def execGetProtocol (s : State) : Result :=
  whenConstructed s <| .next (s.answerValue (s.protocol.code.setWidth 32))

/-- GET_PULSE_LENGTH (43_transmitter.md R121). -/
def execGetPulseLength (s : State) : Result :=
  whenConstructed s <| .next (s.answerValue s.pulse)

/-- GET_REPEAT_COUNT (43_transmitter.md R122). -/
def execGetRepeatCount (s : State) : Result :=
  whenConstructed s <| .next (s.answerValue s.repeatCount)

end Sys2Proof.Machine
end

