-- ==== Sys2Proof/Machine/Builder.lean ====
section
/-! DEFINITION. The CodeWord Builder (42_codeword_builder.md R100 to R109): the two builders as pure functions, and
the commands that reach them. -/

namespace Sys2Proof.Machine

/-- `sym(1) = 0`, `sym(0) = F` (42_codeword_builder.md R101). -/
def groupSymbol (on : Bool) : Symbol := if on then .zero else .floating

/-- `addr_a(GA)`: bit 0 first (42_codeword_builder.md R101). -/
def addrA (ga : BitVec 5) : Codeword :=
  [groupSymbol (ga.getLsbD 0), groupSymbol (ga.getLsbD 1), groupSymbol (ga.getLsbD 2), groupSymbol (ga.getLsbD 3),
   groupSymbol (ga.getLsbD 4)]

/-- `TABLE_A`: entry `c - 1` is the code of channel `c` (42_codeword_builder.md R102). -/
def tableA : List Codeword :=
  [[.zero, .floating, .floating, .floating, .floating],
   [.floating, .zero, .floating, .floating, .floating],
   [.floating, .floating, .zero, .floating, .floating],
   [.floating, .floating, .floating, .zero, .floating],
   [.floating, .floating, .floating, .floating, .zero]]

/-- `chan_a(c)` for `c` in 1 ..= 5 (42_codeword_builder.md R102). -/
def chanA (ch : BitVec 3) : Codeword := tableA.getD (ch.toNat - 1) []

/-- `stat_a` (42_codeword_builder.md R103). -/
def statA (on : Bool) : Codeword := if on then [.zero, .floating] else [.floating, .zero]

/-- `TABLE_B`: entry `k` is the code of `k`; entry 0 is never selected (42_codeword_builder.md R106). -/
def tableB : List Codeword :=
  [[.floating, .floating, .floating, .floating],
   [.zero, .floating, .floating, .floating],
   [.floating, .zero, .floating, .floating],
   [.floating, .floating, .zero, .floating],
   [.floating, .floating, .floating, .zero]]

/-- `code_b(k)` for `k` in 1 ..= 4 (42_codeword_builder.md R106). -/
def codeB (k : BitVec 3) : Codeword := tableB.getD k.toNat []

/-- The last symbol of a type-B codeword: `F` for on, `0` for off (42_codeword_builder.md R107). -/
def statB (on : Bool) : Codeword := if on then [.floating] else [.zero]

/-- `out_of_range_a()` and `out_of_range_b()`: a codeword of the terminator alone, or an argument error
(42_codeword_builder.md R105, R108). -/
def outOfRange : OutOfRangePolicy → Except Status Codeword
  | .preserve => .ok [.term]
  | .reject => .error .invalidArgument

/-- `build_type_a` (42_codeword_builder.md R104). -/
def buildTypeA (policy : OutOfRangePolicy) (ga : BitVec 5) (ch : BitVec 3) (on : Bool) : Except Status Codeword :=
  if inRangeA ch then .ok (addrA ga ++ chanA ch ++ statA on ++ [.term])
  else outOfRange policy

/-- `build_type_b` (42_codeword_builder.md R107). -/
def buildTypeB (policy : OutOfRangePolicy) (ad ch : BitVec 3) (on : Bool) : Except Status Codeword :=
  if inRangeB ad && inRangeB ch then
    .ok (codeB ad ++ codeB ch ++ [.floating, .floating, .floating] ++ statB on ++ [.term])
  else outOfRange policy

/-- What a command does with a built codeword, or with the builder's error (00_scope.md R17). -/
def withCodeword (built : Except Status Codeword) (s : State) (k : Codeword → Result) : Result :=
  match built with
  | .ok cw => k cw
  | .error status => .next (s.fail status)

/-- BUILD_TYPE_A (42_codeword_builder.md R104, R105, R109). -/
def execBuildTypeA (ga : BitVec 5) (ch : BitVec 3) (st : Bool) (s : State) : Result :=
  whenConstructed s <|
    withCodeword (buildTypeA Config.outOfRangePolicy ga ch st) s fun cw => .next (s.answerCodeword cw)

/-- BUILD_TYPE_B (42_codeword_builder.md R107, R108, R109). -/
def execBuildTypeB (ad ch : BitVec 3) (st : Bool) (s : State) : Result :=
  whenConstructed s <|
    withCodeword (buildTypeB Config.outOfRangePolicy ad ch st) s fun cw => .next (s.answerCodeword cw)

end Sys2Proof.Machine
end

