-- ==== Sys2Proof/Machine/Transmitter.lean ====
section
/-! DEFINITION. The Transmitter (43_transmitter.md R123 to R135): the switch commands of both schemes, the two
codeword transmissions and the disposal of the line. -/

namespace Sys2Proof.Machine

/-- `switch_a` (43_transmitter.md R125): the length check, then the `None` check, then the builder's error, then
the delay check, in the order of 60_exceptions.md R164 (DEDUCED, notes/assumptions/17.md). -/
def switchA (policy : OutOfRangePolicy) (ga : BitVec 5) (galen : BitVec 8) (dev : BitVec 3) (on : Bool)
    (s : State) : Result :=
  whenActive s <|
    if groupTooLong galen then .next (s.fail .invalidAddress)
    else if deviceIsNone dev then .next s.answerOk
    else withCodeword (buildTypeA policy ga dev on) s fun cw => perform (.triState cw) s.passes s

/-- `switch_b` (43_transmitter.md R128). -/
def switchB (policy : OutOfRangePolicy) (ad ch : BitVec 3) (on : Bool) (s : State) : Result :=
  whenActive s <|
    withCodeword (buildTypeB policy ad ch on) s fun cw => perform (.triState cw) s.passes s

/-- SWITCH_ON_A (43_transmitter.md R123). -/
def execSwitchOnA (ga : BitVec 5) (galen : BitVec 8) (dev : BitVec 3) (s : State) : Result :=
  switchA Config.outOfRangePolicy ga galen dev true s

/-- SWITCH_OFF_A (43_transmitter.md R124). -/
def execSwitchOffA (ga : BitVec 5) (galen : BitVec 8) (dev : BitVec 3) (s : State) : Result :=
  switchA Config.outOfRangePolicy ga galen dev false s

/-- SWITCH_ON_B (43_transmitter.md R126). -/
def execSwitchOnB (ad ch : BitVec 3) (s : State) : Result :=
  switchB Config.outOfRangePolicy ad ch true s

/-- SWITCH_OFF_B (43_transmitter.md R127). -/
def execSwitchOffB (ad ch : BitVec 3) (s : State) : Result :=
  switchB Config.outOfRangePolicy ad ch false s

/-- SEND_TRI_STATE (43_transmitter.md R129, R130). -/
def execSendTriState (cw : Codeword) (s : State) : Result :=
  whenActive s <| perform (.triState cw) s.passes s

/-- SEND_BIN (43_transmitter.md R131, R132). -/
def execSendBin (cw : Codeword) (s : State) : Result :=
  whenActive s <| perform (.binary cw) s.passes s

/-- DISPOSE (43_transmitter.md R135): the line is released exactly once. -/
def execDispose (s : State) : Result :=
  match s.life with
  | .unconfigured => .next (s.refuse .notConstructed)
  | .active => .next s.releaseLine.answerOk
  | .disposed => .next s.answerOk

end Sys2Proof.Machine
end

