-- ==== Sys2Proof/Machine/Waveform.lean ====
section
/-! DEFINITION. The commands of the Waveform Encoder (41_waveform.md R85 to R91): each requires an active line
(R81), is refused whole if a delay is out of range (R83), and else performs its waveform once. -/

namespace Sys2Proof.Machine

/-- TRANSMIT (41_waveform.md R85). -/
def execTransmit (hu lu : Word) (s : State) : Result :=
  whenActive s <| perform (.waveform [⟨asU32 hu, asU32 lu⟩]) 1 s

/-- SEND_SYNC (41_waveform.md R86). -/
def execSendSync (s : State) : Result :=
  whenActive s <| perform (.waveform (waveSync s.protocol)) 1 s

/-- SEND_BIT0 (41_waveform.md R87). -/
def execSendBit0 (s : State) : Result :=
  whenActive s <| perform (.waveform (waveBit0 s.protocol)) 1 s

/-- SEND_BIT1 (41_waveform.md R88). -/
def execSendBit1 (s : State) : Result :=
  whenActive s <| perform (.waveform (waveBit1 s.protocol)) 1 s

/-- SEND_TRI_0 (41_waveform.md R89). -/
def execSendTri0 (s : State) : Result :=
  whenActive s <| perform (.waveform waveTri0) 1 s

/-- SEND_TRI_1 (41_waveform.md R90). -/
def execSendTri1 (s : State) : Result :=
  whenActive s <| perform (.waveform waveTri1) 1 s

/-- SEND_TRI_F (41_waveform.md R91). -/
def execSendTriF (s : State) : Result :=
  whenActive s <| perform (.waveform waveTriF) 1 s

end Sys2Proof.Machine
end

