-- ==== Sys2Proof/Machine/Dispatch.lean ====
section
/-! DEFINITION. The meaning of every instruction, one arm for each constructor of `Instr`. -/

namespace Sys2Proof.Machine

def exec (i : Instr) (s : State) : Host.Outcome State Fault Refusal :=
  match i with
  -- 43_transmitter.md: configuration and accessors, disposal
  | .setProtocol pr => Sys2Proof.Machine.execSetProtocol pr s
  | .setPulseLength val => Sys2Proof.Machine.execSetPulseLength val s
  | .setRepeatCount val => Sys2Proof.Machine.execSetRepeatCount val s
  | .getProtocol => Sys2Proof.Machine.execGetProtocol s
  | .getPulseLength => Sys2Proof.Machine.execGetPulseLength s
  | .getRepeatCount => Sys2Proof.Machine.execGetRepeatCount s
  | .dispose => Sys2Proof.Machine.execDispose s
  -- 41_waveform.md
  | .transmit hu lu => Sys2Proof.Machine.execTransmit hu lu s
  | .sendSync => Sys2Proof.Machine.execSendSync s
  | .sendBit0 => Sys2Proof.Machine.execSendBit0 s
  | .sendBit1 => Sys2Proof.Machine.execSendBit1 s
  | .sendTri0 => Sys2Proof.Machine.execSendTri0 s
  | .sendTri1 => Sys2Proof.Machine.execSendTri1 s
  | .sendTriF => Sys2Proof.Machine.execSendTriF s
  -- 42_codeword_builder.md
  | .buildTypeA ga ch st => Sys2Proof.Machine.execBuildTypeA ga ch st s
  | .buildTypeB ad ch st => Sys2Proof.Machine.execBuildTypeB ad ch st s
  -- 43_transmitter.md: switch commands and codeword transmissions
  | .switchOnA ga galen dev => Sys2Proof.Machine.execSwitchOnA ga galen dev s
  | .switchOffA ga galen dev => Sys2Proof.Machine.execSwitchOffA ga galen dev s
  | .switchOnB ad ch => Sys2Proof.Machine.execSwitchOnB ad ch s
  | .switchOffB ad ch => Sys2Proof.Machine.execSwitchOffB ad ch s
  | .sendTriState cw => Sys2Proof.Machine.execSendTriState cw s
  | .sendBin cw => Sys2Proof.Machine.execSendBin cw s
  -- 44_binary_converter.md
  | .decToBin value bitlen => Sys2Proof.Machine.execDecToBin value bitlen s

end Sys2Proof.Machine
end

