-- ==== Sys2Proof/Machine/Port.lean ====
section
/-! DEFINITION. The command port (30_encoding.md R55; 10_state.md R29): what the block does with the next packet, and
what it does while a command is in flight. Machine/Step.lean only chooses between the two. -/

namespace Sys2Proof.Machine

/-- One command, from its acceptance to its answer: the packet is decoded, a packet the decoder rejects is answered
`REFUSED` with no other effect (30_encoding.md R64), and any other is executed (60_exceptions.md R164, item 1
first). -/
def serve (p : Packet) (rest : List Packet) (s : State) : Result :=
  match decode p with
  | .error why => .next ((s.accept rest).refuse why)
  | .ok i => exec i (s.accept rest)

/-- The idle port: it takes the next packet, and with none issued it goes on waiting (notes/assumptions/6.md). -/
def idle (s : State) : Result :=
  match s.pending with
  | [] => .next s
  | p :: rest => serve p rest s

/-- The busy port: it accepts nothing, and the command in flight makes its next move (10_state.md R29;
notes/assumptions/5.md). -/
def proceed (s : State) : Result :=
  match s.flight with
  | some f => .next (advance f s)
  | none => .fault .commandLost

end Sys2Proof.Machine
end

