-- ==== Sys2Proof/Machine/Step.lean ====
section
/-! DEFINITION. One step of the machine, and the placing of an instruction where the next step takes it. -/

namespace Sys2Proof.Machine

/-- One step. Idle, the block takes and executes one command whole (20_memory.md R49, R51); with a command in
flight it accepts none and moves that command on (10_state.md R29; notes/assumptions/5.md). No other agent has a move
(notes/assumptions/14.md). -/
def step (s : State) : Host.Outcome State Fault Refusal :=
  if s.busy then proceed s else idle s

/-- `s` with the packet that `nbits` and `w` spell (Decode.lean, `packetOfWord`) as the next one the issuer
issues, and the port idle, so that the very next step takes it (notes/assumptions/6.md). -/
def State.withFetchWord (s : State) (nbits w : Nat) : State :=
  { s with pending := packetOfWord nbits w :: s.pending.tail, busy := false, flight := none }

end Sys2Proof.Machine
end

