-- ==== Sys2Proof/Machine/Flags.lean ====
section
/-! DEFINITION. The block has no flags and no condition codes (10_state.md R31): the outcome of a command is its
status. This file gives the status codes (60_exceptions.md R155) and the response as it stands on the port
(30_encoding.md R55, R57, R69). -/

namespace Sys2Proof.Machine

/-- The 3-bit status codes (60_exceptions.md R155). -/
def Status.code : Status → BitVec 3
  | .ok => 0#3
  | .invalidConfiguration => 1#3
  | .invalidAddress => 2#3
  | .invalidArgument => 3#3
  | .refused _ => 7#3

/-- A response on the command port: `STATUS`, `RESULT` and the symbol codes of `RCW` (30_encoding.md R55). -/
structure Response where
  status : BitVec 3
  result : Word
  rcw : List (BitVec 2)
  deriving DecidableEq, Repr

/-- What the issuer sees of an answer. -/
def Answer.encode (a : Answer) : Response :=
  { status := a.status.code, result := a.result, rcw := a.rcw.map Symbol.code }

end Sys2Proof.Machine
end

