-- ==== Sys2Proof/Machine/Pseudo.lean ====
section
/-! DEFINITION. The pseudo-commands (30_encoding.md R68). The issuer performs the expansion; the block sees only
the real commands, in order, with the first one's `RCW` as the second one's codeword. -/

namespace Sys2Proof.Machine

/-- The pseudo-commands of 30_encoding.md R68. -/
inductive Pseudo where
  /-- SEND_DEC `VALUE, BITLEN` -/
  | sendDec (value : Word) (bitlen : BitVec 8)
  /-- SEND_CODE_A `GA, CH, ST` -/
  | sendCodeA (ga : BitVec 5) (ch : BitVec 3) (st : Bool)
  /-- SEND_CODE_B `AD, CH, ST` -/
  | sendCodeB (ad ch : BitVec 3) (st : Bool)
  /-- SWITCH_B `AD, CH, ST` -/
  | switchB (ad ch : BitVec 3) (st : Bool)
  deriving DecidableEq, Repr

/-- A command, then a second one on the codeword the first returned. If the first is not answered `OK` there is no
result to pass on, and the issuer sends nothing more (DESIGN CHOICE: notes/assumptions/8.md). -/
def chain (first : Instr) (second : Codeword → Instr) (s : State) : Result :=
  match exec first s with
  | .next t =>
    match t.answers.getLast? with
    | some a => if a.status = .ok then exec (second a.rcw) t else .next t
    | none => .next t
  | .fault r => .fault r
  | .refused r => .refused r

/-- What the block has done when the issuer has performed a pseudo-command (30_encoding.md R68). -/
def Pseudo.run (p : Pseudo) (s : State) : Result :=
  match p with
  | .sendDec value bitlen => chain (.decToBin value bitlen) .sendBin s
  | .sendCodeA ga ch st => chain (.buildTypeA ga ch st) .sendTriState s
  | .sendCodeB ad ch st => chain (.buildTypeB ad ch st) .sendTriState s
  | .switchB ad ch st => exec (if st then .switchOnB ad ch else .switchOffB ad ch) s

end Sys2Proof.Machine
end

