-- ==== Sys2Proof/Safety.lean ====
section
/-! DEFINITION. What a claim may say of a state and of a run: the invariant every step keeps, the mark of a refused
run, and the classes of commands the rules of the spec speak of together. -/

namespace Sys2Proof

/-- The commands that drive the line (43_transmitter.md R136, which lists them). -/
def Instr.drivesLine : Instr → Bool
  | .transmit _ _ | .sendSync | .sendBit0 | .sendBit1 | .sendTri0 | .sendTri1 | .sendTriF | .sendTriState _
  | .sendBin _ | .switchOnA _ _ _ | .switchOffA _ _ _ | .switchOnB _ _ | .switchOffB _ _ => true
  | .setProtocol _ | .setPulseLength _ | .setRepeatCount _ | .getProtocol | .getPulseLength | .getRepeatCount
  | .dispose | .buildTypeA _ _ _ | .buildTypeB _ _ _ | .decToBin _ _ => false

namespace Machine

/-- The run holds a refused command. Answers only accumulate, so the mark stays for good (00_scope.md R17,
60_exceptions.md R160): a claim about a run the spec gives a meaning takes `runRefused = false` as a premise. -/
def State.runRefused (s : State) : Bool :=
  s.answers.any fun a => match a.status with
    | .refused _ => true
    | .ok => false
    | .invalidConfiguration => false
    | .invalidAddress => false
    | .invalidArgument => false

/-- The number of passes a job makes: one for a single waveform (41_waveform.md), `cfg.repeat` for a codeword
(43_transmitter.md R133). -/
def Job.passesIn (s : State) : Job → Nat
  | .waveform _ => 1
  | .triState _ => s.passes
  | .binary _ => s.passes

/-- What the block keeps true of itself from construction on. -/
structure Inv (s : State) : Prop where
  /-- `cfg.repeat` never holds a negative value (10_state.md R27). -/
  repeat_nonneg : 0 ≤ asI32 s.repeatCount
  /-- `busy` is 1 exactly while a command is in flight (10_state.md R29, R34). -/
  busy_iff_flight : s.busy = s.flight.isSome
  /-- A command in flight holds the configuration it read at its start, which cannot change before it ends
  (20_memory.md R49), drives an active line (41_waveform.md R81), and was admitted by the delay check (R83). -/
  flight_admitted : ∀ f ∈ s.flight, s.life = .active ∧ f.protocol = s.protocol ∧ f.pulse = s.pulse ∧
    f.passes = f.job.passesIn s ∧ f.k ≤ f.passes ∧ s.delaysInRange f.job f.passes = true
  /-- Every delay that has been requested is in the collaborator's range (41_waveform.md R83). -/
  delays_in_range : ∀ n, Effect.delay n ∈ s.trace → n ≤ Config.delayMax
  /-- Until it is disposed the block has not released its line (43_transmitter.md R135). -/
  owned_not_released : s.life ≠ .disposed → Effect.release ∉ s.trace
  /-- A disposed block has released its line exactly once, and nothing reached the line after that (43_transmitter.md
  R135, R136). -/
  released_last : s.life = .disposed → ∃ tr, s.trace = tr ++ [.release] ∧ Effect.release ∉ tr
  /-- While the block owns the line, `out` is the level last written (10_state.md R30). -/
  out_last_written : s.life ≠ .disposed → ∀ level ds tr, s.trace = tr ++ .write level :: ds →
    (∀ l, Effect.write l ∉ ds) → s.out = level
  /-- An answer other than `OK` carries no result (30_encoding.md R69), and `INVALID_CONFIGURATION` answers no
  command (60_exceptions.md R156). -/
  answers_clean : ∀ a ∈ s.answers, a.status ≠ .invalidConfiguration ∧
    (a.status ≠ .ok → a.result = 0#32 ∧ a.rcw = [])

/-! ### The vocabulary of the claims -/

/-- The state a command leaves behind, written out: what it appended to the trace, the level of OUT, and its one
answer. The port is idle, no sequencer state survives, and EVERYTHING ELSE is as before. -/
def State.after (s : State) (tr : List Effect) (level : Level) (a : Answer) : State :=
  { s with
    trace := s.trace ++ tr
    out := level
    busy := false
    flight := none
    answers := s.answers ++ [a] }

/-- The response `(OK, 0)` with an empty `RCW`. -/
def Answer.done : Answer := { status := .ok, result := 0#32, rcw := [] }

/-- The response of a command that failed with a status. -/
def Answer.failed (status : Status) : Answer := { status := status, result := 0#32, rcw := [] }

/-- `T(h, l)` at a pulse length of `p` microseconds (41_waveform.md R82; `H(p*h) L(p*l)` in 95_test_vectors.md). -/
def transmitAt (p h l : Nat) : List Effect :=
  [.write .high, .delay (p * h), .write .low, .delay (p * l)]

/-- The low units of a protocol's sync (41_waveform.md R80). -/
def syncLow : Protocol → Nat
  | .p1 => 31
  | .p2 => 10

/-- The sync at a pulse length of `p` microseconds (41_waveform.md R86). -/
def syncSegment (pr : Protocol) (p : Nat) : List Effect := transmitAt p 1 (syncLow pr)

/-- What the tri-state sequencer emits for a symbol at a pulse length of `p` (41_waveform.md R89 to R91). -/
def triSegments (p : Nat) : Symbol → List Effect
  | .zero => transmitAt p 1 3 ++ transmitAt p 1 3
  | .one => transmitAt p 3 1 ++ transmitAt p 3 1
  | .floating => transmitAt p 1 3 ++ transmitAt p 3 1
  | .term => []

/-- What the binary sequencer emits for a symbol at a pulse length of `p` (41_waveform.md R87, R88; 43_transmitter.md
R131). -/
def bitSegments (pr : Protocol) (p : Nat) : Symbol → List Effect
  | .zero => match pr with
    | .p1 => transmitAt p 1 3
    | .p2 => transmitAt p 1 2
  | .one => match pr with
    | .p1 => transmitAt p 3 1
    | .p2 => transmitAt p 2 1
  | .floating => []
  | .term => []

/-- `n` passes, each the given effects and then the sync (43_transmitter.md R129, R131). -/
def passesOf (n : Nat) (pass : List Effect) (pr : Protocol) (p : Nat) : List Effect :=
  (List.replicate n (pass ++ syncSegment pr p)).flatten

/-- The level of OUT after `n` passes: every pass ends in the low segment of its sync (10_state.md R30). -/
def levelAfterPasses (n : Nat) (before : Level) : Level := if n = 0 then before else .low

/-- A number of units makes a delay out of range at the pulse length held (41_waveform.md R83). -/
def State.delayBad (s : State) (units : Nat) : Prop :=
  s.pulse.toInt * units < 0 ∨ 2 ^ 32 - 1 < s.pulse.toInt * units

/-- The most units in a segment of a bit waveform (41_waveform.md R80). -/
def bitLong : Protocol → Nat
  | .p1 => 3
  | .p2 => 2

/-- The 12 symbols of a scheme-A codeword before its terminator, for a channel in 1 ..= 5 (42_codeword_builder.md R101
to R104): a set address bit is `0`, the channel puts the single `0` at position `ch - 1`, and on is `"0F"`. -/
def symbolsA (ga : BitVec 5) (ch : BitVec 3) (on : Bool) : Codeword :=
  ((List.range 5).map fun i => if ga.getLsbD i then Symbol.zero else Symbol.floating) ++
    ((List.range 5).map fun i => if i + 1 = ch.toNat then Symbol.zero else Symbol.floating) ++
    (if on then [.zero, .floating] else [.floating, .zero])

/-- The 12 symbols of a scheme-B codeword before its terminator, for codes in 1 ..= 4 (42_codeword_builder.md R106,
R107): code `k` puts the single `0` at position `k - 1`, then `"FFF"`, then `F` for on. -/
def symbolsB (ad ch : BitVec 3) (on : Bool) : Codeword :=
  ((List.range 4).map fun i => if i + 1 = ad.toNat then Symbol.zero else Symbol.floating) ++
    ((List.range 4).map fun i => if i + 1 = ch.toNat then Symbol.zero else Symbol.floating) ++
    [.floating, .floating, .floating] ++ (if on then [.floating] else [.zero])

/-- A command is answered `REFUSED` under a reason and does nothing else (60_exceptions.md R160). -/
def RefusedFor (why : RefuseReason) (i : Instr) (s : State) : Prop :=
  exec i s = .next (s.after [] s.out (.failed (.refused why)))

/-- What the lifecycle makes of a command that needs a constructed block (60_exceptions.md R158). -/
def NeedsConstruction (i : Instr) : Prop :=
  ∀ s : State, s.life = .unconfigured → RefusedFor .notConstructed i s

/-- What the lifecycle makes of a command that needs an active line (60_exceptions.md R158; 43_transmitter.md
R136). -/
def NeedsLine (i : Instr) : Prop :=
  NeedsConstruction i ∧ ∀ s : State, s.life = .disposed → RefusedFor .lineDisposed i s

/-- The commands of 41_waveform.md. -/
def isWaveform : Instr → Bool
  | .transmit _ _ | .sendSync | .sendBit0 | .sendBit1 | .sendTri0 | .sendTri1 | .sendTriF => true
  | .sendTriState _ | .sendBin _ | .switchOnA _ _ _ | .switchOffA _ _ _ | .switchOnB _ _ | .switchOffB _ _
  | .setProtocol _ | .setPulseLength _ | .setRepeatCount _ | .getProtocol | .getPulseLength | .getRepeatCount
  | .dispose | .buildTypeA _ _ _ | .buildTypeB _ _ _ | .decToBin _ _ => false

/-- The symbol `0` or `1` of a binary codeword. -/
def isBit : Symbol → Bool
  | .zero => true
  | .one => true
  | .floating => false
  | .term => false

end Machine

end Sys2Proof
end

