-- ==== Sys2Proof/Certificates/Slice0/Obligations.lean ====
section
/-! DEFINITION. The statements for the provers, in the order of the spec's files. A state is written
`s.after tr level a`: the state `s` with `tr` appended to the trace, OUT at `level`, the port idle, the answer `a`
given, and every other field as it was (Safety.lean). -/

open Sys2Proof Sys2Proof.Machine

/-! ### Construction and the lifecycle -/

/-- 70_reset_and_hazards.md R180: construction on a line that is present and in output mode, the values it leaves, and
that it touches neither the line nor the trace; on any other line it fails. -/
def Obligations.ConstructionInitialisesTheBlock : Prop :=
  (∀ s : State, construct ⟨true, true⟩ s =
    (.ok, { s with
      protocol := .p1, pulse := 350#32, repeatCount := 0#32, busy := false, flight := none, life := .active })) ∧
  (∀ (line : LineFacts) (s : State), line.present = false ∨ line.outputMode = false →
    (construct line s).1 = .invalidConfiguration)

/-- The reset state of the model is the one 10_state.md R33 gives after a successful construction: a construction on a
good line leaves it as it is, nothing has been issued, answered or emitted. That a run begins after a SUCCESSFUL
construction is the model's choice between the two outcomes (log entry 7). -/
def Obligations.ResetStateIsAConstructedBlock : Prop :=
  State.reset.protocol = .p1 ∧ State.reset.pulse = 350#32 ∧ State.reset.repeatCount = 0#32 ∧
    State.reset.life = .active ∧ State.reset.busy = false ∧ State.reset.flight = none ∧
    construct ⟨true, true⟩ State.reset = (.ok, State.reset) ∧
    State.reset.pending = [] ∧ State.reset.answers = [] ∧ State.reset.trace = []

/-- 70_reset_and_hazards.md R181 and 60_exceptions.md R158: a failed construction, and every command after it. -/
def Obligations.FailedConstructionRefusesEveryCommand : Prop :=
  (∀ (line : LineFacts) (s : State), line.present = false ∨ line.outputMode = false →
    (construct line s).1 = .invalidConfiguration ∧ (construct line s).2.life = .unconfigured ∧
      (construct line s).2.trace = s.trace ∧ (construct line s).2.out = s.out) ∧
  ∀ (i : Instr) (s : State), s.life = .unconfigured →
    exec i s = .next (s.after [] s.out (.failed (.refused .notConstructed)))

/-- 43_transmitter.md R136: the line-driving commands are refused, whatever their operands, and the other commands do
what they do on an active block. (DISPOSE after DISPOSE is in `DisposeReleasesTheLineOnce`.) -/
def Obligations.DisposedBlockRefusesOnlyLineCommands : Prop :=
  (∀ (i : Instr) (s : State), i.drivesLine = true → s.life = .disposed →
    exec i s = .next (s.after [] s.out (.failed (.refused .lineDisposed)))) ∧
  (∀ (i : Instr) (s : State), i.drivesLine = false → i ≠ .dispose →
    ∃ t : State, exec i { s with life := .active } = .next { t with life := .active } ∧
      exec i { s with life := .disposed } = .next { t with life := .disposed }) ∧
  (∀ s : State, s.life = .disposed → exec .dispose s = .next (s.after [] s.out .done))

/-- 70_reset_and_hazards.md R182 and 10_state.md R28: no step revives a disposed or a failed block, and an active one
can only stay active or be disposed. -/
def Obligations.LifecycleNeverGoesBack : Prop :=
  ∀ s t : State, step s = .next t →
    (s.life = .disposed → t.life = .disposed) ∧ (s.life = .unconfigured → t.life = .unconfigured) ∧
      (s.life = .active → t.life = .active ∨ t.life = .disposed)

/-! ### Encoding -/

/-- 30_encoding.md R57: the symbol codes, all four of them used. -/
def Obligations.SymbolCodesAreOneToOne : Prop :=
  Symbol.code .zero = 0b00#2 ∧ Symbol.code .one = 0b01#2 ∧ Symbol.code .floating = 0b10#2 ∧
    Symbol.code .term = 0b11#2 ∧ (∀ x : Symbol, Symbol.ofCode x.code = x) ∧
    (∀ c : BitVec 2, (Symbol.ofCode c).code = c)

/-- 30_encoding.md R56, R58, R60: packets written out bit by bit from the spec's encodings (the packets of
95_test_vectors.md B1, X1, BN1, CF6 and P1d), decoded. -/
def Obligations.KnownPacketsDecode : Prop :=
  decode ⟨0x20#8, 0x0000001F#32, 0x00000101#32, []⟩ = .ok (.buildTypeA 0b11111#5 1#3 true) ∧
  decode ⟨0x30#8, 0x0000051F#32, 0x00000001#32, []⟩ = .ok (.switchOnA 0b11111#5 5#8 1#3) ∧
  decode ⟨0x40#8, 0x00000005#32, 0x00000008#32, []⟩ = .ok (.decToBin 5#32 8#8) ∧
  decode ⟨0x03#8, 0x0000000A#32, 0x00000000#32, []⟩ = .ok (.setRepeatCount 10#32) ∧
  decode ⟨0x0F#8, 0x00000000#32, 0x00000000#32, []⟩ = .ok .dispose ∧
  decode ⟨0x34#8, 0x00000000#32, 0x00000000#32, [0b00#2, 0b10#2, 0b11#2]⟩ =
    .ok (.sendTriState [.zero, .floating, .term])

/-- 30_encoding.md R56, R58: every instruction a packet can carry is the one its own packet decodes to, with every
operand at every value. -/
def Obligations.DecodeOfEncodeIsTheInstruction : Prop :=
  ∀ i : Instr, i.wellFormed = true → decode (encode i) = .ok i

/-- 30_encoding.md R55, R56, R64: a packet that decodes is the packet of the instruction it decodes to, and that
instruction is well formed: no accepted packet holds a bit its instruction does not account for. -/
def Obligations.EncodeOfDecodeIsThePacket : Prop :=
  ∀ (p : Packet) (i : Instr), decode p = .ok i → encode i = p ∧ i.wellFormed = true

/-- 30_encoding.md R64 and R59: the refusals of the decoder in the order of the rule, over every packet, with the
reserved bits of R56 written out for each opcode. -/
def Obligations.DecoderRefusesByNameInOrder : Prop :=
  ∀ p : Packet,
    (∀ rows : List (List (BitVec 8) × Word × Word),
      rows = [([0x04#8, 0x05#8, 0x06#8, 0x0F#8, 0x11#8, 0x12#8, 0x13#8, 0x14#8, 0x15#8, 0x16#8, 0x34#8, 0x35#8],
            0xFFFFFFFF#32, 0xFFFFFFFF#32),
          ([0x01#8], 0xFFFFFFFE#32, 0xFFFFFFFF#32), ([0x02#8, 0x03#8], 0#32, 0xFFFFFFFF#32),
          ([0x10#8], 0#32, 0#32), ([0x20#8], 0xFFFFFFE0#32, 0xFFFFFEF8#32), ([0x21#8], 0xFFFFFFF8#32, 0xFFFFFEF8#32),
          ([0x30#8, 0x31#8], 0xFFFF00E0#32, 0xFFFFFFF8#32), ([0x32#8, 0x33#8], 0xFFFFFFF8#32, 0xFFFFFFF8#32),
          ([0x40#8], 0#32, 0xFFFFFF00#32)] →
      ((∀ row ∈ rows, p.op ∉ row.1) → decode p = .error .unassignedOpcode) ∧
      ∀ row ∈ rows, p.op ∈ row.1 →
        (p.a0 &&& row.2.1 ≠ 0#32 ∨ p.a1 &&& row.2.2 ≠ 0#32 → decode p = .error .reservedBitSet) ∧
        (p.a0 &&& row.2.1 = 0#32 ∧ p.a1 &&& row.2.2 = 0#32 →
          (p.op ≠ 0x34#8 ∧ p.op ≠ 0x35#8 ∧ p.cw ≠ [] → decode p = .error .unexpectedCodeword) ∧
          ((p.op = 0x34#8 ∨ p.op = 0x35#8) ∧ 256 < p.cw.length → decode p = .error .codewordTooLong) ∧
          ((p.op = 0x30#8 ∨ p.op = 0x31#8) ∧ p.cw = [] ∧ (p.a0 >>> 8).toNat ≤ 5 ∧
              (∃ j, (p.a0 >>> 8).toNat ≤ j ∧ j < 5 ∧ p.a0.getLsbD j = true) →
            decode p = .error .groupAddressBitBeyondLength) ∧
          ((p.op = 0x34#8 ∨ p.op = 0x35#8) ∧ p.cw.length ≤ 256 ∨
              p.op ≠ 0x34#8 ∧ p.op ≠ 0x35#8 ∧ p.op ≠ 0x30#8 ∧ p.op ≠ 0x31#8 ∧ p.cw = [] ∨
              (p.op = 0x30#8 ∨ p.op = 0x31#8) ∧ p.cw = [] ∧ (5 < (p.a0 >>> 8).toNat ∨
                ∀ j, (p.a0 >>> 8).toNat ≤ j → j < 5 → p.a0.getLsbD j = false) →
            ∃ i, decode p = .ok i)))

/-! ### The step and the port -/

/-- A step of an idle block with a packet issued runs the instruction the packet decodes to, on the state in which the
packet is taken off the port and the port is busy. What is the model's choice: that an idle step takes the head of the
issuer's list `pending` (log entry 6), and that it runs the command whole (log entry 5). That a packet is one command,
decoded and then executed, with the port busy, is 30_encoding.md R55, R64 and 10_state.md R29. -/
def Obligations.StepRunsTheDecodedInstruction : Prop :=
  ∀ (s : State) (p : Packet) (rest : List Packet) (i : Instr),
    s.busy = false → s.pending = p :: rest → decode p = .ok i →
      step s = exec i { s with pending := rest, busy := true }

/-- 30_encoding.md R64: "a refused packet is answered with status REFUSED and has no other effect" (but that it is no
longer on the port), and decoding refusals come before every other check (60_exceptions.md R164). That the model answers
as the block does, and does not stop, is log entry 4; that an idle step takes the head of `pending` is log entry 6. -/
def Obligations.StepAnswersAnUndecodablePacketRefused : Prop :=
  ∀ (s : State) (p : Packet) (rest : List Packet) (why : RefuseReason),
    s.busy = false → s.pending = p :: rest → decode p = .error why →
      step s = .next { s.after [] s.out (.failed (.refused why)) with pending := rest }

/-- The model's placing of a table word (log entry 6): the very next step runs the instruction the decoder reads from
it. -/
def Obligations.PlacedTableWordRunsNext : Prop :=
  ∀ (s : State) (nbits w : Nat) (i : Instr), decodeTableWord nbits w = some i →
    step (s.withFetchWord nbits w) = exec i { s with pending := s.pending.tail, busy := true, flight := none }

/-- The model's idle port (log entry 6): with no packet issued and no command in flight, a step changes nothing. -/
def Obligations.IdlePortWaits : Prop :=
  ∀ s : State, s.busy = false → s.pending = [] → step s = .next s

/-- 10_state.md R29, 20_memory.md R49 and R51: while a command is in flight, a step accepts no packet and changes no
configuration; it emits at most one effect, or ends the command with its one answer. That a flight is cut into such
moves is log entry 5. -/
def Obligations.BusyPortAcceptsNothing : Prop :=
  ∀ s t : State, s.busy = true → step s = .next t →
    t.pending = s.pending ∧ t.protocol = s.protocol ∧ t.pulse = s.pulse ∧ t.repeatCount = s.repeatCount ∧
      t.life = s.life ∧ t.draws = s.draws ∧
      (t.busy = true ∧ t.answers = s.answers ∧ (t.trace = s.trace ∧ t.out = s.out ∨ ∃ e, t.trace = s.trace ++ [e]) ∨
        t = s.after [] s.out .done)

/-- 60_exceptions.md R155: every command, on every state, ends with exactly one status, of the codes 0 to 3 and 7; an
address error comes from a scheme-A SWITCH only and an argument error (under this hardware's `Preserve`) from
SET_REPEAT_COUNT only. -/
def Obligations.EveryCommandEndsWithOneStatus : Prop :=
  (Status.code .ok = 0#3 ∧ Status.code .invalidConfiguration = 1#3 ∧ Status.code .invalidAddress = 2#3 ∧
    Status.code .invalidArgument = 3#3 ∧ ∀ why, Status.code (.refused why) = 7#3) ∧
  ∀ (i : Instr) (s : State), ∃ (t : State) (a : Answer), exec i s = .next t ∧ t.answers = s.answers ++ [a] ∧
    t.busy = false ∧ t.flight = none ∧ t.pending = s.pending ∧ a.status ≠ .invalidConfiguration ∧
    (a.status = .invalidAddress → ∃ ga galen dev, i = .switchOnA ga galen dev ∨ i = .switchOffA ga galen dev) ∧
    (a.status = .invalidArgument → ∃ val, i = .setRepeatCount val)

/-- 60_exceptions.md R165 (which the spec derives from R164): a command that does not end in `OK` has changed nothing and emitted nothing. -/
def Obligations.ErrorsArePrecise : Prop :=
  ∀ (i : Instr) (s t : State) (a : Answer), exec i s = .next t → t.answers = s.answers ++ [a] → a.status ≠ .ok →
    t = s.after [] s.out a

/-- 60_exceptions.md R156: only construction raises `INVALID_CONFIGURATION`, exactly when the line is absent or not in
output mode, and before anything is emitted. -/
def Obligations.OnlyConstructionIsAnInvalidConfiguration : Prop :=
  (∀ (line : LineFacts) (s : State),
    ((construct line s).1 = .invalidConfiguration ↔ line.present = false ∨ line.outputMode = false) ∧
      (construct line s).2.trace = s.trace) ∧
  ∀ (s t : State), step s = .next t → ∀ a ∈ t.answers, a.status = .invalidConfiguration → a ∈ s.answers

/-- 30_encoding.md R69: the results. `RESULT` is 0 but for a GET that is answered `OK`, `RCW` empty but for a builder
that is answered `OK`, and a failure carries neither. -/
def Obligations.ResponsesCarryOnlyTheirResults : Prop :=
  ∀ (i : Instr) (s : State), ∃ (t : State) (a : Answer), exec i s = .next t ∧ t.answers = s.answers ++ [a] ∧
    (a.status ≠ .ok → a.result = 0#32 ∧ a.rcw = []) ∧
    (a.status = .ok →
      (i = .getProtocol → a.result = if s.protocol = .p1 then 0#32 else 1#32) ∧
      (i = .getPulseLength → a.result = s.pulse) ∧
      (i = .getRepeatCount → a.result = s.repeatCount) ∧
      (i ≠ .getProtocol → i ≠ .getPulseLength → i ≠ .getRepeatCount → a.result = 0#32) ∧
      ((∃ ga ch st, i = .buildTypeA ga ch st) ∨ (∃ ad ch st, i = .buildTypeB ad ch st) ∨
          (∃ v n, i = .decToBin v n) → a.rcw.getLast? = some .term) ∧
      ((∀ ga ch st, i ≠ .buildTypeA ga ch st) → (∀ ad ch st, i ≠ .buildTypeB ad ch st) →
        (∀ v n, i ≠ .decToBin v n) → a.rcw = []))

/-! ### The invariant -/

/-- The reset state keeps the invariant of Safety.lean. -/
def Obligations.InvariantHoldsAtReset : Prop := Inv State.reset

/-- Every step keeps the invariant of Safety.lean: the repeat count is never negative, a command in flight holds the
configuration it was started with and was admitted by the delay check, every delay requested is a `u32`, the line is
released at most once and nothing reaches it after that, OUT is the level last written, and no failure carries a
result. -/
def Obligations.EveryStepKeepsTheInvariant : Prop :=
  ∀ s t : State, Inv s → step s = .next t → Inv t

/-- From a state that keeps the invariant every step gives a next state: none faults or stops. It says no more than that
the model has a next state, and rests on the model's choices: a wait of the idle port is a step (log entry 6), and a
refused packet or command is answered and the run goes on (log entry 4). It is no claim that an idle block makes
progress. -/
def Obligations.NoStepStopsUnderTheInvariant : Prop :=
  ∀ s : State, Inv s → ∃ t : State, step s = .next t

/-! ### Configuration and accessors -/

/-- 43_transmitter.md R115, R116: SET_PROTOCOL re-baselines the pulse length exactly when it is not positive. -/
def Obligations.SetProtocolRebaselinesANonPositivePulse : Prop :=
  decode ⟨0x01#8, 0#32, 0#32, []⟩ = .ok (.setProtocol .p1) ∧
  decode ⟨0x01#8, 1#32, 0#32, []⟩ = .ok (.setProtocol .p2) ∧
  ∀ pr : Protocol, NeedsConstruction (.setProtocol pr) ∧
    ∀ s : State, s.life ≠ .unconfigured →
      exec (.setProtocol pr) s = .next { s.after [] s.out .done with
        protocol := pr
        pulse := if s.pulse.toInt ≤ 0 then (if pr = .p1 then 350#32 else 650#32) else s.pulse }

/-- 43_transmitter.md R117: SET_PULSE_LENGTH stores any `i32`. -/
def Obligations.SetPulseLengthStoresAnyValue : Prop :=
  ∀ val : Word, decode ⟨0x02#8, val, 0#32, []⟩ = .ok (.setPulseLength val) ∧
    NeedsConstruction (.setPulseLength val) ∧
    ∀ s : State, s.life ≠ .unconfigured →
      exec (.setPulseLength val) s = .next { s.after [] s.out .done with pulse := val }

/-- 43_transmitter.md R118, R119: SET_REPEAT_COUNT stores a value that is not negative; a negative one is an argument
error and changes nothing. -/
def Obligations.SetRepeatCountRejectsNegativeValues : Prop :=
  ∀ val : Word, decode ⟨0x03#8, val, 0#32, []⟩ = .ok (.setRepeatCount val) ∧
    NeedsConstruction (.setRepeatCount val) ∧
    ∀ s : State, s.life ≠ .unconfigured →
      (0 ≤ val.toInt → exec (.setRepeatCount val) s = .next { s.after [] s.out .done with repeatCount := val }) ∧
      (val.toInt < 0 → exec (.setRepeatCount val) s = .next (s.after [] s.out (.failed .invalidArgument)))

/-- 43_transmitter.md R120, R121, R122: the accessors return the whole register and change nothing. -/
def Obligations.AccessorsReturnTheRegisters : Prop :=
  (decode ⟨0x04#8, 0#32, 0#32, []⟩ = .ok .getProtocol ∧ decode ⟨0x05#8, 0#32, 0#32, []⟩ = .ok .getPulseLength ∧
    decode ⟨0x06#8, 0#32, 0#32, []⟩ = .ok .getRepeatCount) ∧
  (NeedsConstruction .getProtocol ∧ NeedsConstruction .getPulseLength ∧ NeedsConstruction .getRepeatCount) ∧
  ∀ s : State, s.life ≠ .unconfigured →
    exec .getProtocol s =
      .next (s.after [] s.out { status := .ok, result := if s.protocol = .p1 then 0#32 else 1#32, rcw := [] }) ∧
    exec .getPulseLength s = .next (s.after [] s.out { status := .ok, result := s.pulse, rcw := [] }) ∧
    exec .getRepeatCount s = .next (s.after [] s.out { status := .ok, result := s.repeatCount, rcw := [] })

/-- 10_state.md R24 (its column "access") and 20_memory.md R50: which commands write which register, and that only the
line-driving commands and DISPOSE reach the line. -/
def Obligations.RegistersAreWrittenOnlyByTheirCommands : Prop :=
  ∀ (i : Instr) (s t : State), exec i s = .next t →
    (t.protocol ≠ s.protocol → ∃ pr, i = .setProtocol pr) ∧
    (t.pulse ≠ s.pulse → (∃ val, i = .setPulseLength val) ∨ ∃ pr, i = .setProtocol pr) ∧
    (t.repeatCount ≠ s.repeatCount → ∃ val, i = .setRepeatCount val) ∧
    (t.life ≠ s.life → i = .dispose) ∧
    (i.drivesLine = false → i ≠ .dispose → t.trace = s.trace ∧ t.out = s.out) ∧
    (i ≠ .dispose → t.draws = s.draws)

/-- 70_reset_and_hazards.md R185 (which the spec derives from R116): a positive pulse length survives a change of protocol, and the way to a protocol's
default unit is to write a value that is not positive before SET_PROTOCOL. -/
def Obligations.ProtocolDefaultNeedsANonPositivePulseFirst : Prop :=
  (∀ (pr : Protocol) (s : State), s.life ≠ .unconfigured → 0 < s.pulse.toInt →
    ∃ t, exec (.setProtocol pr) s = .next t ∧ t.protocol = pr ∧ t.pulse = s.pulse) ∧
  (∀ (pr : Protocol) (val : Word) (s : State), s.life ≠ .unconfigured → val.toInt ≤ 0 →
    ∃ t u, exec (.setPulseLength val) s = .next t ∧ exec (.setProtocol pr) t = .next u ∧ u.protocol = pr ∧
      u.pulse = if pr = .p1 then 350#32 else 650#32) ∧
  (∀ (pr : Protocol) (val : Word) (s : State), s.life ≠ .unconfigured →
    ∃ t u, exec (.setProtocol pr) s = .next t ∧ exec (.setPulseLength val) t = .next u ∧ u.protocol = pr ∧
      u.pulse = val)

/-- 43_transmitter.md R135: the first DISPOSE emits `X` once and disposes the block, a later one does nothing. The level
of OUT after it is a free value: the statement holds for whatever it is (10_state.md R30; `draws` is the model's own
counter, log entry 2). -/
def Obligations.DisposeReleasesTheLineOnce : Prop :=
  decode ⟨0x0F#8, 0#32, 0#32, []⟩ = .ok .dispose ∧ NeedsConstruction .dispose ∧
  (∀ s : State, s.life = .active →
    ∃ (level : Level) (n : Nat),
      exec .dispose s = .next { s.after [.release] level .done with life := .disposed, draws := n }) ∧
  (∀ s : State, s.life = .disposed → exec .dispose s = .next (s.after [] s.out .done))

/-! ### The Waveform Encoder -/

/-- 41_waveform.md R85: TRANSMIT, with the units as `u32` and the products on mathematical integers (R82, R83). -/
def Obligations.TransmitEmitsOneTransmit : Prop :=
  ∀ hu lu : Word, decode ⟨0x10#8, hu, lu, []⟩ = .ok (.transmit hu lu) ∧ NeedsLine (.transmit hu lu) ∧
    ∀ s : State, s.life = .active →
      (¬ s.delayBad hu.toNat → ¬ s.delayBad lu.toNat →
        exec (.transmit hu lu) s = .next (s.after
          [.write .high, .delay (s.pulse.toInt * hu.toNat).toNat, .write .low, .delay (s.pulse.toInt * lu.toNat).toNat]
          .low .done)) ∧
      (s.delayBad hu.toNat ∨ s.delayBad lu.toNat → RefusedFor .delayOutOfRange (.transmit hu lu) s)

/-- 41_waveform.md R86: SEND_SYNC, one high unit and 31 (P1) or 10 (P2) low units. -/
def Obligations.SendSyncEmitsTheSync : Prop :=
  decode ⟨0x11#8, 0#32, 0#32, []⟩ = .ok .sendSync ∧ NeedsLine .sendSync ∧
  ∀ s : State, s.life = .active →
    (∀ p : Nat, s.pulse.toInt = p → ¬ s.delayBad (syncLow s.protocol) →
      exec .sendSync s = .next (s.after (syncSegment s.protocol p) .low .done)) ∧
    (s.delayBad 1 ∨ s.delayBad (syncLow s.protocol) → RefusedFor .delayOutOfRange .sendSync s)

/-- 41_waveform.md R87, R88: SEND_BIT0 and SEND_BIT1, with the protocol's ratios. -/
def Obligations.SendBitsEmitTheProtocolRatios : Prop :=
  decode ⟨0x12#8, 0#32, 0#32, []⟩ = .ok .sendBit0 ∧ decode ⟨0x13#8, 0#32, 0#32, []⟩ = .ok .sendBit1 ∧
  NeedsLine .sendBit0 ∧ NeedsLine .sendBit1 ∧
  ∀ s : State, s.life = .active →
    (∀ p : Nat, s.pulse.toInt = p → ¬ s.delayBad (bitLong s.protocol) →
      exec .sendBit0 s = .next (s.after (bitSegments s.protocol p .zero) .low .done) ∧
      exec .sendBit1 s = .next (s.after (bitSegments s.protocol p .one) .low .done)) ∧
    (s.delayBad 1 ∨ s.delayBad (bitLong s.protocol) →
      RefusedFor .delayOutOfRange .sendBit0 s ∧ RefusedFor .delayOutOfRange .sendBit1 s)

/-- 41_waveform.md R89, R90, R91 and R92: the tri-state waveforms, the same under both protocols. -/
def Obligations.SendTriEmitsTheSameRatiosUnderBothProtocols : Prop :=
  decode ⟨0x14#8, 0#32, 0#32, []⟩ = .ok .sendTri0 ∧ decode ⟨0x15#8, 0#32, 0#32, []⟩ = .ok .sendTri1 ∧
  decode ⟨0x16#8, 0#32, 0#32, []⟩ = .ok .sendTriF ∧
  NeedsLine .sendTri0 ∧ NeedsLine .sendTri1 ∧ NeedsLine .sendTriF ∧
  ∀ s : State, s.life = .active →
    (∀ p : Nat, s.pulse.toInt = p → ¬ s.delayBad 3 →
      exec .sendTri0 s = .next (s.after (transmitAt p 1 3 ++ transmitAt p 1 3) .low .done) ∧
      exec .sendTri1 s = .next (s.after (transmitAt p 3 1 ++ transmitAt p 3 1) .low .done) ∧
      exec .sendTriF s = .next (s.after (transmitAt p 1 3 ++ transmitAt p 3 1) .low .done)) ∧
    (s.delayBad 1 ∨ s.delayBad 3 →
      RefusedFor .delayOutOfRange .sendTri0 s ∧ RefusedFor .delayOutOfRange .sendTri1 s ∧
        RefusedFor .delayOutOfRange .sendTriF s)

/-- 41_waveform.md R84 (which the spec derives from R82 and R85 to R91): what a waveform command emits and answers is a function of `cfg.protocol`, `cfg.pulse`, the
command and its operands (and of the lifecycle that admits it, R81), not of `cfg.repeat` or of anything else the block
holds; and it writes no configuration. -/
def Obligations.WaveformTraceIsAFunctionOfProtocolAndPulse : Prop :=
  ∀ (i : Instr) (s₁ s₂ : State), isWaveform i = true → s₁.life = s₂.life → s₁.protocol = s₂.protocol →
    s₁.pulse = s₂.pulse →
    ∃ (tr : List Effect) (a : Answer) (l₁ l₂ : Level),
      exec i s₁ = .next (s₁.after tr l₁ a) ∧ exec i s₂ = .next (s₂.after tr l₂ a)

/-- 20_memory.md R49, R50 and 42_codeword_builder.md R112: what any command emits and answers depends on the
configuration, the lifecycle, the command and its operands, and on nothing an earlier command left elsewhere. -/
def Obligations.CommandsDependOnTheConfigurationAlone : Prop :=
  ∀ (i : Instr) (s₁ s₂ : State), s₁.life = s₂.life → s₁.protocol = s₂.protocol → s₁.pulse = s₂.pulse →
    s₁.repeatCount = s₂.repeatCount →
    ∃ (t₁ t₂ : State) (tr : List Effect) (a : Answer), exec i s₁ = .next t₁ ∧ exec i s₂ = .next t₂ ∧
      t₁.trace = s₁.trace ++ tr ∧ t₂.trace = s₂.trace ++ tr ∧ t₁.answers = s₁.answers ++ [a] ∧
      t₂.answers = s₂.answers ++ [a] ∧ t₁.life = t₂.life ∧ t₁.protocol = t₂.protocol ∧ t₁.pulse = t₂.pulse ∧
      t₁.repeatCount = t₂.repeatCount

/-- 10_state.md R30 (which the spec derives from R82): a line-driving command either leaves the line alone or ends with a low segment and OUT low. -/
def Obligations.EveryWaveformEndsLow : Prop :=
  ∀ (i : Instr) (s t : State), i.drivesLine = true → exec i s = .next t →
    t.trace = s.trace ∧ t.out = s.out ∨
      t.out = .low ∧ ∃ (tr : List Effect) (n : Nat), t.trace = s.trace ++ tr ++ [.write .low, .delay n]

/-- 41_waveform.md R94 (which the spec derives from R80, R82 and R93): the units, the line writes and the delays of each waveform. -/
def Obligations.WaveformLengths : Prop :=
  ∀ (pr : Protocol) (pulse : Word) (w : List Transmit) (units writes : Nat),
    (w, units, writes) ∈
      [(waveSync pr, (if pr = .p1 then 32 else 11), 2), (waveBit0 pr, (if pr = .p1 then 4 else 3), 2),
       (waveBit1 pr, (if pr = .p1 then 4 else 3), 2), (waveTri .zero, 8, 4), (waveTri .one, 8, 4),
       (waveTri .floating, 8, 4)] →
    (w.map fun t => t.high + t.low).sum = units ∧ lineWrites (waveEffects pulse w) = writes ∧
      delayRequests (waveEffects pulse w) = writes

/-! ### The CodeWord Builder -/

/-- 42_codeword_builder.md R101 to R105: BUILD_TYPE_A, for every group address and every channel, and both values of
`OUT_OF_RANGE_POLICY`. -/
def Obligations.BuildTypeAReturnsTheCodeword : Prop :=
  ∀ (ga : BitVec 5) (ch : BitVec 3) (st : Bool),
    decode ⟨0x20#8, ga.setWidth 32, ch.setWidth 32 ||| (if st then 0x100#32 else 0#32), []⟩ =
      .ok (.buildTypeA ga ch st) ∧
    NeedsConstruction (.buildTypeA ga ch st) ∧
    (1 ≤ ch.toNat ∧ ch.toNat ≤ 5 →
      (∀ s : State, s.life ≠ .unconfigured → exec (.buildTypeA ga ch st) s =
        .next (s.after [] s.out { status := .ok, result := 0#32, rcw := symbolsA ga ch st ++ [.term] })) ∧
      ∀ policy, buildTypeA policy ga ch st = .ok (symbolsA ga ch st ++ [.term])) ∧
    (ch.toNat = 0 ∨ 5 < ch.toNat →
      (∀ s : State, s.life ≠ .unconfigured → exec (.buildTypeA ga ch st) s =
        .next (s.after [] s.out { status := .ok, result := 0#32, rcw := [.term] })) ∧
      buildTypeA .reject ga ch st = .error .invalidArgument)

/-- 42_codeword_builder.md R106 to R108: BUILD_TYPE_B, for every pair of codes, and both values of
`OUT_OF_RANGE_POLICY`. -/
def Obligations.BuildTypeBReturnsTheCodeword : Prop :=
  ∀ (ad ch : BitVec 3) (st : Bool),
    decode ⟨0x21#8, ad.setWidth 32, ch.setWidth 32 ||| (if st then 0x100#32 else 0#32), []⟩ =
      .ok (.buildTypeB ad ch st) ∧
    NeedsConstruction (.buildTypeB ad ch st) ∧
    (1 ≤ ad.toNat ∧ ad.toNat ≤ 4 ∧ 1 ≤ ch.toNat ∧ ch.toNat ≤ 4 →
      (∀ s : State, s.life ≠ .unconfigured → exec (.buildTypeB ad ch st) s =
        .next (s.after [] s.out { status := .ok, result := 0#32, rcw := symbolsB ad ch st ++ [.term] })) ∧
      ∀ policy, buildTypeB policy ad ch st = .ok (symbolsB ad ch st ++ [.term])) ∧
    (ad.toNat = 0 ∨ 4 < ad.toNat ∨ ch.toNat = 0 ∨ 4 < ch.toNat →
      (∀ s : State, s.life ≠ .unconfigured → exec (.buildTypeB ad ch st) s =
        .next (s.after [] s.out { status := .ok, result := 0#32, rcw := [.term] })) ∧
      buildTypeB .reject ad ch st = .error .invalidArgument)

/-- 42_codeword_builder.md R100 (which the spec derives from R101 to R103 and R106): the shape of every codeword built from in-range inputs. -/
def Obligations.BuiltCodewordsAreTwelveSymbolsAndATerminator : Prop :=
  ∀ (policy : OutOfRangePolicy) (cw : Codeword),
    (∃ ga ch st, 1 ≤ ch.toNat ∧ ch.toNat ≤ 5 ∧ buildTypeA policy ga ch st = .ok cw) ∨
      (∃ ad ch st, 1 ≤ ad.toNat ∧ ad.toNat ≤ 4 ∧ 1 ≤ ch.toNat ∧ ch.toNat ≤ 4 ∧ buildTypeB policy ad ch st = .ok cw) →
    cw.length = 13 ∧ cw.getLast? = some .term ∧ (∀ x ∈ cw.dropLast, x = .zero ∨ x = .floating) ∧ Symbol.one ∉ cw

/-- 42_codeword_builder.md R110, R111: which symbols depend on the status, under either policy. Under scheme A the
codewords for on and off share their first 10 symbols, of which the first 5 mirror the address bits, and differ in
symbols 10 and 11; under scheme B they share their first 11, the address code, the channel code and `"FFF"`, and differ
in symbol 11. -/
def Obligations.StatusTouchesOnlyItsOwnSymbols : Prop :=
  ∀ policy : OutOfRangePolicy,
    (∀ (ga : BitVec 5) (ch : BitVec 3), 1 ≤ ch.toNat → ch.toNat ≤ 5 →
      ∃ channel : Codeword, channel.length = 5 ∧ ∀ st : Bool, buildTypeA policy ga ch st =
        .ok (((List.range 5).map fun i => if ga.getLsbD i then Symbol.zero else .floating) ++ channel ++
          (if st then [.zero, .floating] else [.floating, .zero]) ++ [.term])) ∧
    (∀ (ad ch : BitVec 3) (st : Bool), 1 ≤ ad.toNat → ad.toNat ≤ 4 → 1 ≤ ch.toNat → ch.toNat ≤ 4 →
      buildTypeB policy ad ch st =
        .ok (((List.range 4).map fun i => if i + 1 = ad.toNat then Symbol.zero else .floating) ++
          ((List.range 4).map fun i => if i + 1 = ch.toNat then Symbol.zero else .floating) ++
          [.floating, .floating, .floating] ++ [if st then .floating else .zero] ++ [.term]))

/-! ### The sequencer -/

/-- 43_transmitter.md R129, R130: SEND_TRI_STATE. Each of `cfg.repeat` passes emits the waveform of every symbol before
the first `TERM`, then the sync. The repeat count is taken as not negative (10_state.md R27; `Inv.repeat_nonneg`), and
with none the pulse length does not matter. -/
def Obligations.SendTriStateEmitsItsPasses : Prop :=
  (∀ cw : Codeword, cw.length ≤ 256 →
    decode ⟨0x34#8, 0#32, 0#32, cw.map Symbol.code⟩ = .ok (.sendTriState cw)) ∧
  ∀ cw : Codeword, NeedsLine (.sendTriState cw) ∧
    ∀ (s : State) (n : Nat), s.life = .active → s.repeatCount.toInt = n →
      (∀ p : Nat, n = 0 ∨ s.pulse.toInt = p ∧ ¬ s.delayBad (syncLow s.protocol) →
        exec (.sendTriState cw) s = .next (s.after
          (passesOf n ((cw.takeWhile fun x => x != .term).flatMap (triSegments p)) s.protocol p)
          (levelAfterPasses n s.out) .done)) ∧
      (n ≠ 0 → s.delayBad 1 ∨ s.delayBad (syncLow s.protocol) → RefusedFor .delayOutOfRange (.sendTriState cw) s)

/-- 43_transmitter.md R131, R132: SEND_BIN. Each of `cfg.repeat` passes emits the waveform of every `0` and `1` of the
whole codeword (`BIN_SCAN = WholeWord`), then the sync; the alternative `StopAtTerm` would visit only the symbols before
the first `TERM`. -/
def Obligations.SendBinEmitsItsPasses : Prop :=
  (∀ cw : Codeword, cw.length ≤ 256 →
    decode ⟨0x35#8, 0#32, 0#32, cw.map Symbol.code⟩ = .ok (.sendBin cw)) ∧
  (∀ (pr : Protocol) (cw : Codeword),
    binPass .stopAtTerm pr cw = binPass .wholeWord pr (cw.takeWhile fun x => x != .term)) ∧
  ∀ cw : Codeword, NeedsLine (.sendBin cw) ∧
    ∀ (s : State) (n : Nat), s.life = .active → s.repeatCount.toInt = n →
      (∀ p : Nat, n = 0 ∨ s.pulse.toInt = p ∧ ¬ s.delayBad (syncLow s.protocol) →
        exec (.sendBin cw) s = .next (s.after (passesOf n (cw.flatMap (bitSegments s.protocol p)) s.protocol p)
          (levelAfterPasses n s.out) .done)) ∧
      (n ≠ 0 → s.delayBad 1 ∨ s.delayBad (syncLow s.protocol) → RefusedFor .delayOutOfRange (.sendBin cw) s)

/-- 43_transmitter.md R123, R124, R125: the scheme-A switch commands, their checks in the order of the rule, and R134's
degraded output for `DEV` 6 and 7 under this hardware's `Preserve`. -/
def Obligations.SwitchAChecksThenTransmits : Prop :=
  ∀ (on : Bool) (ga : BitVec 5) (galen : BitVec 8) (dev : BitVec 3) (i : Instr),
    i = (if on then .switchOnA ga galen dev else .switchOffA ga galen dev) →
    (5 < galen.toNat ∨ (∀ j, galen.toNat ≤ j → j < 5 → ga.getLsbD j = false) →
      decode ⟨if on then 0x30#8 else 0x31#8, ga.setWidth 32 ||| (galen.setWidth 32 <<< 8), dev.setWidth 32, []⟩ =
        .ok i) ∧
    NeedsLine i ∧
    ∀ (s : State) (n : Nat), s.life = .active → s.repeatCount.toInt = n →
      (5 < galen.toNat → exec i s = .next (s.after [] s.out (.failed .invalidAddress))) ∧
      (galen.toNat ≤ 5 → dev.toNat = 0 → exec i s = .next (s.after [] s.out .done)) ∧
      (galen.toNat ≤ 5 → 1 ≤ dev.toNat →
        (∀ p : Nat, n = 0 ∨ s.pulse.toInt = p ∧ ¬ s.delayBad (syncLow s.protocol) →
          (dev.toNat ≤ 5 → exec i s = .next (s.after
            (passesOf n ((symbolsA ga dev on).flatMap (triSegments p)) s.protocol p) (levelAfterPasses n s.out)
            .done)) ∧
          (5 < dev.toNat → exec i s = .next (s.after (passesOf n [] s.protocol p) (levelAfterPasses n s.out) .done))) ∧
        (n ≠ 0 → s.delayBad 1 ∨ s.delayBad (syncLow s.protocol) → RefusedFor .delayOutOfRange i s) ∧
        (5 < dev.toNat → switchA .reject ga galen dev on s = .next (s.after [] s.out (.failed .invalidArgument))))

/-- 43_transmitter.md R126, R127, R128: the scheme-B switch commands, and R134's degraded output for a code outside
1 ..= 4 under this hardware's `Preserve`. -/
def Obligations.SwitchBTransmits : Prop :=
  ∀ (on : Bool) (ad ch : BitVec 3) (i : Instr), i = (if on then .switchOnB ad ch else .switchOffB ad ch) →
    decode ⟨if on then 0x32#8 else 0x33#8, ad.setWidth 32, ch.setWidth 32, []⟩ = .ok i ∧
    NeedsLine i ∧
    ∀ (s : State) (n : Nat), s.life = .active → s.repeatCount.toInt = n →
      (∀ p : Nat, n = 0 ∨ s.pulse.toInt = p ∧ ¬ s.delayBad (syncLow s.protocol) →
        (1 ≤ ad.toNat ∧ ad.toNat ≤ 4 ∧ 1 ≤ ch.toNat ∧ ch.toNat ≤ 4 → exec i s = .next (s.after
          (passesOf n ((symbolsB ad ch on).flatMap (triSegments p)) s.protocol p) (levelAfterPasses n s.out) .done)) ∧
        (ad.toNat = 0 ∨ 4 < ad.toNat ∨ ch.toNat = 0 ∨ 4 < ch.toNat →
          exec i s = .next (s.after (passesOf n [] s.protocol p) (levelAfterPasses n s.out) .done))) ∧
      (n ≠ 0 → s.delayBad 1 ∨ s.delayBad (syncLow s.protocol) → RefusedFor .delayOutOfRange i s) ∧
      (ad.toNat = 0 ∨ 4 < ad.toNat ∨ ch.toNat = 0 ∨ 4 < ch.toNat →
        switchB .reject ad ch on s = .next (s.after [] s.out (.failed .invalidArgument)))

/-- 43_transmitter.md R133 (which the spec derives from R129 and R131): a codeword transmission that gets past its checks emits exactly `cfg.repeat` syncs, one at
the end of each pass, and nothing when `cfg.repeat = 0`. The sync's low delay, `p` times its low units, is no other
delay of a pass when `p` is positive, so the syncs can be counted in the trace by it. -/
def Obligations.EveryPassEndsInOneSync : Prop :=
  ∀ (i : Instr) (s : State) (n p : Nat),
    ((∃ cw, i = .sendTriState cw) ∨ (∃ cw, i = .sendBin cw) ∨
      (∃ ga galen dev, galen.toNat ≤ 5 ∧ dev.toNat ≠ 0 ∧
        (i = .switchOnA ga galen dev ∨ i = .switchOffA ga galen dev)) ∨
      (∃ ad ch, i = .switchOnB ad ch ∨ i = .switchOffB ad ch)) →
    s.life = .active → s.repeatCount.toInt = n →
    n = 0 ∨ s.pulse.toInt = p ∧ ¬ s.delayBad (syncLow s.protocol) →
    ∃ pass : List Effect,
      exec i s = .next (s.after (passesOf n pass s.protocol p) (levelAfterPasses n s.out) .done) ∧
      (0 < p → (passesOf n pass s.protocol p).count (.delay (p * syncLow s.protocol)) = n) ∧
      (n = 0 → exec i s = .next (s.after [] s.out .done))

/-- 43_transmitter.md R137 (which the spec derives from R94, R129 and R131): the number of line writes and of delays of a codeword transmission. -/
def Obligations.TraceSizes : Prop :=
  ∀ (s : State) (n : Nat), s.life = .active → s.repeatCount.toInt = n →
    n = 0 ∨ ¬ s.delayBad 1 ∧ ¬ s.delayBad (syncLow s.protocol) →
    (∀ cw : Codeword, ∃ tr level, exec (.sendTriState cw) s = .next (s.after tr level .done) ∧
      lineWrites tr = n * (4 * (cw.takeWhile fun x => x != .term).length + 2) ∧ delayRequests tr = lineWrites tr) ∧
    (∀ cw : Codeword, ∃ tr level, exec (.sendBin cw) s = .next (s.after tr level .done) ∧
      lineWrites tr = n * (2 * cw.countP isBit + 2) ∧ delayRequests tr = lineWrites tr) ∧
    (∀ (ga : BitVec 5) (galen : BitVec 8) (dev : BitVec 3) (i : Instr), galen.toNat ≤ 5 → 1 ≤ dev.toNat →
      dev.toNat ≤ 5 → i = .switchOnA ga galen dev ∨ i = .switchOffA ga galen dev →
      ∃ tr level, exec i s = .next (s.after tr level .done) ∧ lineWrites tr = 50 * n ∧
        delayRequests tr = lineWrites tr) ∧
    (∀ (ad ch : BitVec 3) (i : Instr), 1 ≤ ad.toNat → ad.toNat ≤ 4 → 1 ≤ ch.toNat → ch.toNat ≤ 4 →
      i = .switchOnB ad ch ∨ i = .switchOffB ad ch →
      ∃ tr level, exec i s = .next (s.after tr level .done) ∧ lineWrites tr = 50 * n ∧
        delayRequests tr = lineWrites tr)

/-- 43_transmitter.md R134: a SWITCH command whose codeword is the terminator alone emits `cfg.repeat` copies of the sync
and no data symbol. -/
def Obligations.OutOfRangeSwitchesEmitSyncsOnly : Prop :=
  ∀ (i : Instr) (s : State) (n p : Nat),
    ((∃ ga galen dev, galen.toNat ≤ 5 ∧ 5 < dev.toNat ∧
        (i = .switchOnA ga galen dev ∨ i = .switchOffA ga galen dev)) ∨
      (∃ ad ch, (ad.toNat = 0 ∨ 4 < ad.toNat ∨ ch.toNat = 0 ∨ 4 < ch.toNat) ∧
        (i = .switchOnB ad ch ∨ i = .switchOffB ad ch))) →
    s.life = .active → s.repeatCount.toInt = n →
    n = 0 ∨ s.pulse.toInt = p ∧ ¬ s.delayBad (syncLow s.protocol) →
    exec i s = .next (s.after (List.replicate n (syncSegment s.protocol p)).flatten (levelAfterPasses n s.out) .done)

/-- 70_reset_and_hazards.md R189 (which the spec derives from R80, R94, R129 and R131): the nominal duration of a waveform of `u` units, of a tri-state codeword transmission
with `m` data symbols and of a binary one with `b` zeros and ones. -/
def Obligations.NominalDurations : Prop :=
  (∀ (pulse : Word) (p : Nat) (w : List Transmit), pulse.toInt = p →
    nominal (waveEffects pulse w) = (w.map fun t => t.high + t.low).sum * p) ∧
  ∀ (s : State) (n p : Nat), s.life = .active → s.repeatCount.toInt = n →
    n = 0 ∨ s.pulse.toInt = p ∧ ¬ s.delayBad (syncLow s.protocol) →
    (∀ cw : Codeword, ∃ tr level, exec (.sendTriState cw) s = .next (s.after tr level .done) ∧
      nominal tr = n * (8 * (cw.takeWhile fun x => x != .term).length + if s.protocol = .p1 then 32 else 11) * p) ∧
    (∀ cw : Codeword, ∃ tr level, exec (.sendBin cw) s = .next (s.after tr level .done) ∧
      nominal tr = if s.protocol = .p1 then n * (4 * cw.countP isBit + 32) * p
        else n * (3 * cw.countP isBit + 11) * p)

/-- 10_state.md R34 and 20_memory.md R49, R51: the sequencer with its hidden state, stepped one move at a time from its
launch, ends in the state in which `cfg.repeat` passes have been emitted and the command answered `OK`, which is the state
`exec` answers for the command as a whole. That a launch and single moves can be observed at all is the model's choice
(log entry 5). -/
def Obligations.SequencerStepsAddUpToTheCommand : Prop :=
  ∀ (s : State) (n p : Nat), s.life = .active → s.repeatCount.toInt = n →
    n = 0 ∨ s.pulse.toInt = p ∧ ¬ s.delayBad (syncLow s.protocol) →
    ∀ (cw : Codeword) (t u : State),
      t = s.after (passesOf n ((cw.takeWhile fun x => x != .term).flatMap (triSegments p)) s.protocol p)
        (levelAfterPasses n s.out) .done →
      u = s.after (passesOf n (cw.flatMap (bitSegments s.protocol p)) s.protocol p) (levelAfterPasses n s.out) .done →
      (exec (.sendTriState cw) s = .next t ∧
        ∃ m, Host.Core.run Sys2Proof.core m { s with
          busy := true
          flight := some ⟨.triState cw, s.protocol, s.pulse, n, 0, 0, 0⟩ } = .next t) ∧
      (exec (.sendBin cw) s = .next u ∧
        ∃ m, Host.Core.run Sys2Proof.core m { s with
          busy := true
          flight := some ⟨.binary cw, s.protocol, s.pulse, n, 0, 0, 0⟩ } = .next u)

/-- 60_exceptions.md R168 and 43_transmitter.md R138 (which the spec derives from R129 and R131): once started, a
transmission runs to completion, from wherever its sequencer stands, and ends in `OK` with the port idle, no packet taken
and the configuration as it was. The steps it takes are the single moves of the sequencer, the model's cut of a command
(log entry 5), and a delay is a move that ends at once (log entry 13). -/
def Obligations.EveryFlightRunsToCompletion : Prop :=
  ∀ (s : State) (f : Flight), s.busy = true → s.flight = some f →
    ∃ (m : Nat) (tr : List Effect) (level : Level),
      Host.Core.run Sys2Proof.core m s = .next (s.after tr level .done)

/-! ### The Binary Converter and the pseudo-commands -/

/-- 44_binary_converter.md R145 to R148: DEC_TO_BIN. The digits of a value are zeros and ones, most-significant first, as
few as can hold it, one digit for 0; the filler is the terminator; a value with more digits than `BITLEN` is
refused. -/
def Obligations.DecToBinReturnsFillerDigitsTerminator : Prop :=
  (∀ (value : Word) (bitlen : BitVec 8),
    decode ⟨0x40#8, value, bitlen.setWidth 32, []⟩ = .ok (.decToBin value bitlen) ∧
      NeedsConstruction (.decToBin value bitlen)) ∧
  ∀ value : Word, ∃ d : Codeword,
    (∀ x ∈ d, x = .zero ∨ x = .one) ∧
    d.foldl (fun acc x => 2 * acc + if x = .one then 1 else 0) 0 = value.toNat ∧
    (value = 0#32 → d = [.zero]) ∧ (value ≠ 0#32 → d.head? = some .one) ∧ 1 ≤ d.length ∧ d.length ≤ 32 ∧
    ∀ (bitlen : BitVec 8) (s : State), s.life ≠ .unconfigured →
      (d.length ≤ bitlen.toNat → exec (.decToBin value bitlen) s = .next (s.after [] s.out
        { status := .ok, result := 0#32, rcw := List.replicate (bitlen.toNat - d.length) .term ++ d ++ [.term] })) ∧
      (bitlen.toNat < d.length → RefusedFor .valueWiderThanBitLength (.decToBin value bitlen) s)

/-- 44_binary_converter.md R149 (which the spec derives from R131, R146 and R147): SEND_DEC transmits the significant digits only, whatever `BITLEN`: the trace is the same
for every `BITLEN` that holds the value, and each pass has one bit waveform for each digit, then the sync. The issuer's
part of a pseudo-command is in log entry 8. -/
def Obligations.SendDecTransmitsTheSignificantDigits : Prop :=
  ∀ value : Word, ∃ d : Codeword,
    d.foldl (fun acc x => 2 * acc + if x = .one then 1 else 0) 0 = value.toNat ∧ d.countP isBit = d.length ∧
    (value ≠ 0#32 → d.head? = some .one) ∧
    ∀ (bitlen : BitVec 8) (s : State) (n p : Nat), d.length ≤ bitlen.toNat → s.life = .active →
      s.repeatCount.toInt = n → s.pulse.toInt = p → ¬ s.delayBad (syncLow s.protocol) →
      ∃ t, Pseudo.run (.sendDec value bitlen) s = .next t ∧
        t.trace = s.trace ++ passesOf n (d.flatMap (bitSegments s.protocol p)) s.protocol p

/-- 30_encoding.md R68: SEND_CODE_B has the same trace as the SWITCH command of scheme B, for every pair of codes, in
range or not; SEND_CODE_A has that of the scheme-A command where the checks it leaves out would pass; SWITCH_B is the
SWITCH command. -/
def Obligations.CodePseudoCommandsTransmitLikeTheSwitches : Prop :=
  ∀ (s : State) (on : Bool),
    (∀ ad ch : BitVec 3, ∃ t u : State, Pseudo.run (.sendCodeB ad ch on) s = .next t ∧
      exec (if on then .switchOnB ad ch else .switchOffB ad ch) s = .next u ∧ t.trace = u.trace ∧
      Pseudo.run (.switchB ad ch on) s = .next u) ∧
    (∀ (ga : BitVec 5) (galen : BitVec 8) (dev : BitVec 3), galen.toNat ≤ 5 → dev.toNat ≠ 0 →
      ∃ t u : State, Pseudo.run (.sendCodeA ga dev on) s = .next t ∧
        exec (if on then .switchOnA ga galen dev else .switchOffA ga galen dev) s = .next u ∧ t.trace = u.trace)
end

