-- ==== Sys2Proof/Laws/Decode.lean ====
section
/-! SUPPORT. The opcode map, the symbol codes and the packet fields: what was packed is what is read, and a packet whose
reserved bits are 0 is packed again from what was read. -/

namespace Sys2Proof

/-! ### Codes -/

@[simp] theorem Symbol.ofCode_code (x : Symbol) : Symbol.ofCode x.code = x := by cases x <;> rfl

@[simp] theorem Symbol.code_ofCode (c : BitVec 2) : (Symbol.ofCode c).code = c := by revert c; decide

@[simp] theorem Protocol.ofCode_code (p : Protocol) : Protocol.ofCode p.code = p := by cases p <;> rfl

@[simp] theorem Protocol.code_ofCode (c : BitVec 1) : (Protocol.ofCode c).code = c := by revert c; decide

@[simp] theorem Packet.symbols_map_code (cw : Codeword) : (cw.map Symbol.code).map Symbol.ofCode = cw := by
  induction cw with
  | nil => rfl
  | cons x cw ih => simp [ih]

theorem Packet.map_code_symbols (p : Packet) : p.symbols.map Symbol.code = p.cw := by
  unfold Packet.symbols
  induction p.cw with
  | nil => rfl
  | cons c cw ih => simp [ih]

/-! ### The opcode map -/

@[simp] theorem Opcode.ofCode_code (o : Opcode) : Opcode.ofCode o.code = some o := by cases o <;> rfl

/-- No two opcodes share a value, and a value is assigned only to the opcode that has it. -/
theorem Opcode.ofCode_eq_some {c : BitVec 8} {o : Opcode} (h : Opcode.ofCode c = some o) : o.code = c := by
  have := List.find?_some h
  simpa using this

theorem Opcode.mem_all (o : Opcode) : o ∈ Opcode.all := by cases o <;> decide

theorem Opcode.ofCode_eq_none {c : BitVec 8} (h : ∀ o : Opcode, o.code ≠ c) : Opcode.ofCode c = none := by
  simp only [Opcode.ofCode, List.find?_eq_none]
  intro o _
  simpa using h o

@[simp] theorem Instr.opcode_build (o : Opcode) (p : Packet) : (o.build p).opcode = o := by cases o <;> rfl

/-! ### Fields -/

theorem extract_setWidth {m : Nat} (hm : m ≤ 32) (x : BitVec m) : (x.setWidth 32).extractLsb' 0 m = x := by
  ext j hj
  simp [show j < 32 by omega, BitVec.getLsbD_eq_getElem hj]

theorem packGroup_ga (ga : BitVec 5) (galen : BitVec 8) : (packGroup ga galen).extractLsb' 0 5 = ga := by
  ext j hj
  simp only [packGroup, BitVec.getElem_extractLsb', BitVec.getLsbD_or, BitVec.getLsbD_setWidth, BitVec.getLsbD_shiftLeft]
  simp [show j < 32 by omega, show j < 8 by omega, BitVec.getLsbD_eq_getElem hj]

theorem packGroup_galen (ga : BitVec 5) (galen : BitVec 8) : (packGroup ga galen).extractLsb' 8 8 = galen := by
  ext j hj
  simp only [packGroup, BitVec.getElem_extractLsb', BitVec.getLsbD_or, BitVec.getLsbD_setWidth, BitVec.getLsbD_shiftLeft]
  simp [show 8 + j < 32 by omega, BitVec.getLsbD_eq_getElem hj, BitVec.getLsbD_of_ge ga (8 + j) (by omega),
    show j < 32 by omega]

theorem packChannel_ch (ch : BitVec 3) (st : Bool) : (packChannel ch st).extractLsb' 0 3 = ch := by
  ext j hj
  simp only [packChannel, BitVec.getElem_extractLsb', BitVec.getLsbD_or, BitVec.getLsbD_setWidth, BitVec.getLsbD_shiftLeft]
  simp [show j < 32 by omega, show j < 8 by omega, BitVec.getLsbD_eq_getElem hj]

theorem packChannel_st (ch : BitVec 3) (st : Bool) : (packChannel ch st).getLsbD 8 = st := by
  revert ch st; decide

/-! ### Reserved bits -/

/-- A word that has no bit of a mask is decided by the bits outside it. -/
theorem and_mask_eq_zero_iff (w m : Word) : w &&& m = 0#32 ↔ ∀ j < 32, m.getLsbD j = true → w.getLsbD j = false := by
  constructor
  · intro h j _ hm
    have := congrArg (fun x => x.getLsbD j) h
    simpa [hm] using this
  · intro h
    apply BitVec.eq_of_getLsbD_eq
    intro j hj
    cases hm : m.getLsbD j
    · simp [hm]
    · simp [hm, h j hj hm]

theorem extract_low_of_reserved {n : Nat} {w : Word} {m : Word} (hm : ∀ j < 32, n ≤ j → m.getLsbD j = true)
    (h : w &&& m = 0#32) : (w.extractLsb' 0 n).setWidth 32 = w := by
  apply BitVec.eq_of_getLsbD_eq
  intro j hj
  rw [and_mask_eq_zero_iff] at h
  by_cases hn : j < n
  · simp [hj, hn]
  · have hw := h j hj (hm j hj (by omega))
    rw [hw]
    simp [hj, hn]

/-! ### Packing again what was read -/

theorem packGroup_of_reserved {w : Word} (h : w &&& 0xFFFF00E0#32 = 0#32) :
    packGroup (w.extractLsb' 0 5) (w.extractLsb' 8 8) = w := by
  have hm : ∀ j < 32, (0xFFFF00E0#32).getLsbD j = decide (5 ≤ j ∧ j < 8 ∨ 16 ≤ j) := by decide
  apply BitVec.eq_of_getLsbD_eq
  intro j hj
  have hw := (and_mask_eq_zero_iff w _).mp h j hj
  rw [hm j hj, decide_eq_true_iff] at hw
  simp only [packGroup, BitVec.getLsbD_or, BitVec.getLsbD_setWidth, BitVec.getLsbD_shiftLeft,
    BitVec.getLsbD_extractLsb', hj, decide_true, Bool.true_and]
  by_cases h5 : j < 5
  · simp [h5, show j < 8 by omega]
  by_cases h8 : j < 8
  · simp [h5, h8, hw (by omega)]
  by_cases h16 : j < 16
  · simp [h5, h8, show j - 8 < 32 by omega, show j - 8 < 8 by omega, show 8 + (j - 8) = j by omega]
  · simp [h5, h8, hw (by omega), show ¬ j - 8 < 8 by omega]

theorem packChannel_of_reserved {w : Word} (h : w &&& 0xFFFFFEF8#32 = 0#32) :
    packChannel (w.extractLsb' 0 3) (w.getLsbD 8) = w := by
  have hm : ∀ j < 32, (0xFFFFFEF8#32).getLsbD j = decide (3 ≤ j ∧ j < 8 ∨ 9 ≤ j) := by decide
  apply BitVec.eq_of_getLsbD_eq
  intro j hj
  have hw := (and_mask_eq_zero_iff w _).mp h j hj
  rw [hm j hj, decide_eq_true_iff] at hw
  simp only [packChannel, BitVec.getLsbD_or, BitVec.getLsbD_setWidth, BitVec.getLsbD_shiftLeft,
    BitVec.getLsbD_extractLsb', hj, decide_true, Bool.true_and, BitVec.getLsbD_ofBool]
  by_cases h3 : j < 3
  · simp [h3, show j < 8 by omega]
  by_cases h8 : j < 8
  · simp [h3, h8, hw (by omega)]
  by_cases h9 : j = 8
  · subst h9; simp
  · simp [h3, h8, hw (by omega), show ¬ j - 8 = 0 by omega]

/-! ### The group address -/

theorem strayGroupBit_eq (ga : BitVec 5) (galen : BitVec 8) : strayGroupBit ga galen = !groupFits ga galen := by
  have hlen : (decide (galen.toNat ≤ Config.gaMax)) = !decide (Config.gaMax < galen.toNat) := by
    rw [← decide_not]; exact decide_eq_decide.mpr Nat.not_lt.symm
  simp only [strayGroupBit, groupFits, hlen, Bool.not_or, List.not_all_eq_any_not, Bool.not_not]
  congr 2
  funext i
  rw [← decide_not]
  congr 1
  exact decide_eq_decide.mpr Nat.not_lt.symm

/-- The check of 30_encoding.md R61, bit by bit. -/
theorem groupFits_iff (ga : BitVec 5) (galen : BitVec 8) :
    groupFits ga galen = true ↔ 5 < galen.toNat ∨ ∀ j, galen.toNat ≤ j → j < 5 → ga.getLsbD j = false := by
  simp only [groupFits, Bool.or_eq_true, decide_eq_true_iff, List.all_eq_true, List.mem_range, Bool.not_eq_true']
  refine or_congr Iff.rfl ⟨fun h j a b => ?_, fun h j b => ?_⟩
  · rcases h j b with h | h
    · omega
    · exact h
  · by_cases hj : j < galen.toNat
    · exact .inl hj
    · exact .inr (h j (by omega) b)

/-! ### What the decoder can answer -/

/-- A packet with an assigned opcode that passes every check of 30_encoding.md R64 is the command its opcode makes of its
fields. -/
theorem decode_of_clean {p : Packet} {o : Opcode} (ho : Opcode.ofCode p.op = some o)
    (h0 : p.a0 &&& o.format.reservedA0 = 0#32) (h1 : p.a1 &&& o.format.reservedA1 = 0#32)
    (hc : o.format ≠ .C → p.cw = []) (hl : p.cw.length ≤ Config.cwMax)
    (hg : o.format = .SA → groupFits p.ga p.galen = true) : decode p = .ok (o.build p) := by
  have e1 : ¬ (p.a0 &&& o.format.reservedA0 ≠ 0#32 ∨ p.a1 &&& o.format.reservedA1 ≠ 0#32) := by simp [h0, h1]
  have e2 : ¬ (o.format ≠ .C ∧ p.cw ≠ []) := fun h => h.2 (hc h.1)
  have e3 : ¬ Config.cwMax < p.cw.length := Nat.not_lt.mpr hl
  have e4 : ¬ (o.format = .SA ∧ strayGroupBit p.ga p.galen = true) := by
    rintro ⟨h, h'⟩
    rw [strayGroupBit_eq, hg h] at h'
    cases h'
  simp only [decode, ho, e1, e2, e3, e4, if_false]

/-- A packet that decodes passed every check. -/
theorem decode_ok {p : Packet} {i : Instr} (h : decode p = .ok i) :
    ∃ o, Opcode.ofCode p.op = some o ∧ i = o.build p ∧ p.a0 &&& o.format.reservedA0 = 0#32 ∧
      p.a1 &&& o.format.reservedA1 = 0#32 ∧ (o.format ≠ .C → p.cw = []) ∧ p.cw.length ≤ Config.cwMax ∧
      (o.format = .SA → groupFits p.ga p.galen = true) := by
  unfold decode at h
  split at h
  · cases h
  case h_2 o ho =>
    split at h
    · cases h
    case isFalse hr =>
      split at h
      · cases h
      case isFalse hcw =>
        split at h
        · cases h
        case isFalse hlen =>
          split at h
          · cases h
          case isFalse hg =>
            cases h
            simp only [not_or, not_not] at hr
            refine ⟨o, ho, rfl, hr.1, hr.2, fun hf => ?_, Nat.not_lt.mp hlen, fun hf => ?_⟩
            · by_contra hne; exact hcw ⟨hf, hne⟩
            · rw [strayGroupBit_eq] at hg
              simpa [hf] using hg

end Sys2Proof
end

