-- ==== Sys2Proof/Laws/State.lean ====
section
/-! SUPPORT. What each update of the state does to each field, said once: later proofs rewrite with these and do not
unfold an update. -/

namespace Sys2Proof.Machine

variable (s : State)

/-! ### `State.emit` -/

@[simp] theorem State.emit_protocol (e : Effect) : (s.emit e).protocol = s.protocol := rfl
@[simp] theorem State.emit_pulse (e : Effect) : (s.emit e).pulse = s.pulse := rfl
@[simp] theorem State.emit_repeatCount (e : Effect) : (s.emit e).repeatCount = s.repeatCount := rfl
@[simp] theorem State.emit_life (e : Effect) : (s.emit e).life = s.life := rfl
@[simp] theorem State.emit_out (e : Effect) : (s.emit e).out = e.levelAfter s.out := rfl
@[simp] theorem State.emit_busy (e : Effect) : (s.emit e).busy = s.busy := rfl
@[simp] theorem State.emit_flight (e : Effect) : (s.emit e).flight = s.flight := rfl
@[simp] theorem State.emit_pending (e : Effect) : (s.emit e).pending = s.pending := rfl
@[simp] theorem State.emit_answers (e : Effect) : (s.emit e).answers = s.answers := rfl
@[simp] theorem State.emit_trace (e : Effect) : (s.emit e).trace = s.trace ++ [e] := rfl
@[simp] theorem State.emit_draws (e : Effect) : (s.emit e).draws = s.draws := rfl

/-! ### `State.emitAll` -/

@[simp] theorem State.emitAll_protocol (es : List Effect) : (s.emitAll es).protocol = s.protocol := rfl
@[simp] theorem State.emitAll_pulse (es : List Effect) : (s.emitAll es).pulse = s.pulse := rfl
@[simp] theorem State.emitAll_repeatCount (es : List Effect) : (s.emitAll es).repeatCount = s.repeatCount := rfl
@[simp] theorem State.emitAll_life (es : List Effect) : (s.emitAll es).life = s.life := rfl
@[simp] theorem State.emitAll_out (es : List Effect) : (s.emitAll es).out = levelAfterAll s.out es := rfl
@[simp] theorem State.emitAll_busy (es : List Effect) : (s.emitAll es).busy = s.busy := rfl
@[simp] theorem State.emitAll_flight (es : List Effect) : (s.emitAll es).flight = s.flight := rfl
@[simp] theorem State.emitAll_pending (es : List Effect) : (s.emitAll es).pending = s.pending := rfl
@[simp] theorem State.emitAll_answers (es : List Effect) : (s.emitAll es).answers = s.answers := rfl
@[simp] theorem State.emitAll_trace (es : List Effect) : (s.emitAll es).trace = s.trace ++ es := rfl
@[simp] theorem State.emitAll_draws (es : List Effect) : (s.emitAll es).draws = s.draws := rfl

/-! ### `State.accept` -/

@[simp] theorem State.accept_protocol (rest : List Packet) : (s.accept rest).protocol = s.protocol := rfl
@[simp] theorem State.accept_pulse (rest : List Packet) : (s.accept rest).pulse = s.pulse := rfl
@[simp] theorem State.accept_repeatCount (rest : List Packet) : (s.accept rest).repeatCount = s.repeatCount := rfl
@[simp] theorem State.accept_life (rest : List Packet) : (s.accept rest).life = s.life := rfl
@[simp] theorem State.accept_out (rest : List Packet) : (s.accept rest).out = s.out := rfl
@[simp] theorem State.accept_busy (rest : List Packet) : (s.accept rest).busy = true := rfl
@[simp] theorem State.accept_flight (rest : List Packet) : (s.accept rest).flight = s.flight := rfl
@[simp] theorem State.accept_pending (rest : List Packet) : (s.accept rest).pending = rest := rfl
@[simp] theorem State.accept_answers (rest : List Packet) : (s.accept rest).answers = s.answers := rfl
@[simp] theorem State.accept_trace (rest : List Packet) : (s.accept rest).trace = s.trace := rfl
@[simp] theorem State.accept_draws (rest : List Packet) : (s.accept rest).draws = s.draws := rfl

/-! ### `State.answer` -/

@[simp] theorem State.answer_protocol (a : Answer) : (s.answer a).protocol = s.protocol := rfl
@[simp] theorem State.answer_pulse (a : Answer) : (s.answer a).pulse = s.pulse := rfl
@[simp] theorem State.answer_repeatCount (a : Answer) : (s.answer a).repeatCount = s.repeatCount := rfl
@[simp] theorem State.answer_life (a : Answer) : (s.answer a).life = s.life := rfl
@[simp] theorem State.answer_out (a : Answer) : (s.answer a).out = s.out := rfl
@[simp] theorem State.answer_busy (a : Answer) : (s.answer a).busy = false := rfl
@[simp] theorem State.answer_flight (a : Answer) : (s.answer a).flight = none := rfl
@[simp] theorem State.answer_pending (a : Answer) : (s.answer a).pending = s.pending := rfl
@[simp] theorem State.answer_answers (a : Answer) : (s.answer a).answers = s.answers ++ [a] := rfl
@[simp] theorem State.answer_trace (a : Answer) : (s.answer a).trace = s.trace := rfl
@[simp] theorem State.answer_draws (a : Answer) : (s.answer a).draws = s.draws := rfl

/-! ### `State.fly` -/

@[simp] theorem State.fly_protocol (f : Flight) : (s.fly f).protocol = s.protocol := rfl
@[simp] theorem State.fly_pulse (f : Flight) : (s.fly f).pulse = s.pulse := rfl
@[simp] theorem State.fly_repeatCount (f : Flight) : (s.fly f).repeatCount = s.repeatCount := rfl
@[simp] theorem State.fly_life (f : Flight) : (s.fly f).life = s.life := rfl
@[simp] theorem State.fly_out (f : Flight) : (s.fly f).out = s.out := rfl
@[simp] theorem State.fly_busy (f : Flight) : (s.fly f).busy = true := rfl
@[simp] theorem State.fly_flight (f : Flight) : (s.fly f).flight = some f := rfl
@[simp] theorem State.fly_pending (f : Flight) : (s.fly f).pending = s.pending := rfl
@[simp] theorem State.fly_answers (f : Flight) : (s.fly f).answers = s.answers := rfl
@[simp] theorem State.fly_trace (f : Flight) : (s.fly f).trace = s.trace := rfl
@[simp] theorem State.fly_draws (f : Flight) : (s.fly f).draws = s.draws := rfl

/-! ### `State.releaseLine` -/

@[simp] theorem State.releaseLine_protocol : (s.releaseLine).protocol = s.protocol := rfl
@[simp] theorem State.releaseLine_pulse : (s.releaseLine).pulse = s.pulse := rfl
@[simp] theorem State.releaseLine_repeatCount : (s.releaseLine).repeatCount = s.repeatCount := rfl
@[simp] theorem State.releaseLine_life : (s.releaseLine).life = .disposed := rfl
@[simp] theorem State.releaseLine_out : (s.releaseLine).out = Config.releasedLevel s.draws := rfl
@[simp] theorem State.releaseLine_busy : (s.releaseLine).busy = s.busy := rfl
@[simp] theorem State.releaseLine_flight : (s.releaseLine).flight = s.flight := rfl
@[simp] theorem State.releaseLine_pending : (s.releaseLine).pending = s.pending := rfl
@[simp] theorem State.releaseLine_answers : (s.releaseLine).answers = s.answers := rfl
@[simp] theorem State.releaseLine_trace : (s.releaseLine).trace = s.trace ++ [.release] := rfl
@[simp] theorem State.releaseLine_draws : (s.releaseLine).draws = s.draws + 1 := rfl

/-! ### Updates made of the others -/

theorem State.answerOk_eq : s.answerOk = s.answer { status := .ok, result := 0#32, rcw := [] } := rfl
theorem State.answerValue_eq (v : Word) : s.answerValue v = s.answer { status := .ok, result := v, rcw := [] } := rfl
theorem State.answerCodeword_eq (cw : Codeword) :
    s.answerCodeword cw = s.answer { status := .ok, result := 0#32, rcw := cw } := rfl
theorem State.fail_eq (status : Status) :
    s.fail status = s.answer { status := status, result := 0#32, rcw := [] } := rfl
theorem State.refuse_eq (why : RefuseReason) :
    s.refuse why = s.answer { status := .refused why, result := 0#32, rcw := [] } := rfl

/-! ### `State.assignProtocol` (43_transmitter.md R115, R116) -/

theorem State.assignProtocol_nonpos (policy : RebaselinePolicy) (p : Protocol) (h : asI32 s.pulse ≤ 0) :
    s.assignProtocol policy p = { s with protocol := p, pulse := (protoTable p).defaultPulse } := by
  cases policy; simp [State.assignProtocol, h]

theorem State.assignProtocol_pos (policy : RebaselinePolicy) (p : Protocol) (h : 0 < asI32 s.pulse) :
    s.assignProtocol policy p = { s with protocol := p } := by
  cases policy; simp [State.assignProtocol, Int.not_le.mpr h]

@[simp] theorem State.assignProtocol_protocol (policy : RebaselinePolicy) (p : Protocol) :
    (s.assignProtocol policy p).protocol = p := by
  cases policy; simp only [State.assignProtocol]; split <;> rfl

@[simp] theorem State.assignProtocol_repeatCount (policy : RebaselinePolicy) (p : Protocol) :
    (s.assignProtocol policy p).repeatCount = s.repeatCount := by
  cases policy; simp only [State.assignProtocol]; split <;> rfl

@[simp] theorem State.assignProtocol_life (policy : RebaselinePolicy) (p : Protocol) :
    (s.assignProtocol policy p).life = s.life := by
  cases policy; simp only [State.assignProtocol]; split <;> rfl

@[simp] theorem State.assignProtocol_out (policy : RebaselinePolicy) (p : Protocol) :
    (s.assignProtocol policy p).out = s.out := by
  cases policy; simp only [State.assignProtocol]; split <;> rfl

@[simp] theorem State.assignProtocol_busy (policy : RebaselinePolicy) (p : Protocol) :
    (s.assignProtocol policy p).busy = s.busy := by
  cases policy; simp only [State.assignProtocol]; split <;> rfl

@[simp] theorem State.assignProtocol_flight (policy : RebaselinePolicy) (p : Protocol) :
    (s.assignProtocol policy p).flight = s.flight := by
  cases policy; simp only [State.assignProtocol]; split <;> rfl

@[simp] theorem State.assignProtocol_pending (policy : RebaselinePolicy) (p : Protocol) :
    (s.assignProtocol policy p).pending = s.pending := by
  cases policy; simp only [State.assignProtocol]; split <;> rfl

@[simp] theorem State.assignProtocol_answers (policy : RebaselinePolicy) (p : Protocol) :
    (s.assignProtocol policy p).answers = s.answers := by
  cases policy; simp only [State.assignProtocol]; split <;> rfl

@[simp] theorem State.assignProtocol_trace (policy : RebaselinePolicy) (p : Protocol) :
    (s.assignProtocol policy p).trace = s.trace := by
  cases policy; simp only [State.assignProtocol]; split <;> rfl

@[simp] theorem State.assignProtocol_draws (policy : RebaselinePolicy) (p : Protocol) :
    (s.assignProtocol policy p).draws = s.draws := by
  cases policy; simp only [State.assignProtocol]; split <;> rfl

/-! ### `State.emit` and `State.emitAll` -/

@[simp] theorem State.emitAll_nil : s.emitAll [] = s := by
  simp [State.emitAll, levelAfterAll]

theorem State.emit_emitAll (e : Effect) (es : List Effect) : (s.emit e).emitAll es = s.emitAll (e :: es) := by
  simp [State.emitAll, State.emit, levelAfterAll]

theorem State.emitAll_emitAll (es fs : List Effect) : (s.emitAll es).emitAll fs = s.emitAll (es ++ fs) := by
  simp [State.emitAll, levelAfterAll]

/-! ### `State.fly` -/

@[simp] theorem State.fly_fly (f g : Flight) : (s.fly f).fly g = s.fly g := rfl
@[simp] theorem State.emit_fly (f : Flight) (e : Effect) : (s.fly f).emit e = (s.emit e).fly f := rfl
@[simp] theorem State.emitAll_fly (f : Flight) (es : List Effect) : (s.fly f).emitAll es = (s.emitAll es).fly f := rfl
@[simp] theorem State.answer_fly (f : Flight) (a : Answer) : (s.fly f).answer a = s.answer a := rfl
@[simp] theorem State.answerOk_fly (f : Flight) : (s.fly f).answerOk = s.answerOk := rfl

end Sys2Proof.Machine
end

