-- ==== Sys2Proof/Laws/Sequencer.lean ====
section
/-! SUPPORT. What the sequencer does, said once: driven from its launch it emits exactly the effects of the job's
plan, in order, and answers `OK` (`drive_launch`); and what `perform` answers (`perform_admitted`,
`perform_out_of_range`). -/

namespace Sys2Proof.Machine

/-! ### The effects of a plan -/

@[simp] theorem waveEffects_nil (pulse : Word) : waveEffects pulse [] = [] := rfl

theorem waveEffects_append (pulse : Word) (v w : List Transmit) :
    waveEffects pulse (v ++ w) = waveEffects pulse v ++ waveEffects pulse w := by
  simp [waveEffects]

theorem waveEffects_flatten (pulse : Word) (ws : List (List Transmit)) :
    waveEffects pulse ws.flatten = (ws.map (waveEffects pulse)).flatten := by
  induction ws with
  | nil => rfl
  | cons w ws ih => simp [waveEffects_append, ih]

/-- The effects of a job's passes. -/
theorem waveEffects_plan (pulse : Word) (p : Protocol) (n : Nat) (j : Job) :
    waveEffects pulse (j.plan p n) = (List.replicate n (waveEffects pulse (j.pass p).flatten)).flatten := by
  simp [Job.plan, waveEffects_flatten]

theorem Job.plan_zero (p : Protocol) (j : Job) : j.plan p 0 = [] := by simp [Job.plan]

theorem Job.plan_succ (p : Protocol) (n : Nat) (j : Job) :
    j.plan p (n + 1) = (j.pass p).flatten ++ j.plan p n := by
  simp [Job.plan, List.replicate_succ]

/-- A level survives a list of effects that ends in a transmit only as `Low` (41_waveform.md R82). -/
theorem levelAfterAll_waveEffects (before : Level) (pulse : Word) (w : List Transmit) :
    levelAfterAll before (waveEffects pulse w) = if w = [] then before else .low := by
  induction w generalizing before with
  | nil => simp [levelAfterAll]
  | cons t w ih =>
    have h : levelAfterAll before (waveEffects pulse (t :: w)) = levelAfterAll .low (waveEffects pulse w) := by
      simp [levelAfterAll, waveEffects, Transmit.effects, Effect.levelAfter]
    rw [h, ih]
    simp

/-! ### Driving the sequencer -/

theorem drive_fly_succ (n : Nat) (s : State) (f : Flight) : drive (n + 1) (s.fly f) = drive n (advance f (s.fly f)) :=
  rfl

theorem drive_done (n : Nat) (s : State) (h : s.flight = none) : drive n s = s := by
  cases n <;> simp [drive, h]

/-- Within a waveform: the effects from the position on are emitted, and the sequencer goes to the next symbol. -/
theorem drive_wave (f : Flight) (es : List Effect) (hk : f.k < f.passes) (hw : f.waveHere = some es) (m : Nat) :
    ∀ (d pos : Nat) (s : State), es.length = pos + d →
      drive (d + 1 + m) (s.fly { f with pos := pos }) =
        drive m ((s.emitAll (es.drop pos)).fly { f with i := f.i + 1, pos := 0 }) := by
  intro d
  induction d with
  | zero =>
    intro pos s h
    have hn : es[pos]? = none := by simp [h]
    have hd : es.drop pos = [] := by simp [h]
    have hw' : Flight.waveHere { f with pos := pos } = some es := hw
    rw [Nat.add_comm, drive_fly_succ]
    simp [advance, hk, hw', hn, hd]
  | succ d ih =>
    intro pos s h
    have hlt : pos < es.length := by omega
    have hs : es[pos]? = some es[pos] := by simp [hlt]
    have hw' : Flight.waveHere { f with pos := pos } = some es := hw
    have hstep : drive (d + 1 + 1 + m) (s.fly { f with pos := pos }) =
        drive (d + 1 + m) ((s.emit es[pos]).fly { f with pos := pos + 1 }) := by
      rw [show d + 1 + 1 + m = (d + 1 + m) + 1 by omega, drive_fly_succ]
      simp [advance, hk, hw', hs]
    rw [hstep, ih (pos + 1) _ (by omega), State.emit_emitAll, ← List.drop_eq_getElem_cons hlt]

/-- Within a pass: the waveforms from symbol `i` on are emitted, and the sequencer goes to the next pass. -/
theorem drive_pass (f : Flight) (hk : f.k < f.passes) (m : Nat) :
    ∀ (ws : List (List Transmit)) (i : Nat) (s : State), (f.job.pass f.protocol).drop i = ws →
      drive (passMoves f.pulse ws + m) (s.fly { f with i := i, pos := 0 }) =
        drive m ((s.emitAll (waveEffects f.pulse ws.flatten)).fly { f with k := f.k + 1, i := 0, pos := 0 }) := by
  intro ws
  induction ws with
  | nil =>
    intro i s h
    have hn : (f.job.pass f.protocol)[i]? = none := by
      rw [List.getElem?_eq_none_iff]; simpa using h
    have hw : Flight.waveHere { f with i := i, pos := 0 } = none := by simp [Flight.waveHere, hn]
    rw [show passMoves f.pulse [] + m = m + 1 by simp [passMoves]; omega, drive_fly_succ]
    simp [advance, hk, hw]
  | cons w ws ih =>
    intro i s h
    have hlt : i < (f.job.pass f.protocol).length := by
      by_contra hc
      rw [List.drop_eq_nil_of_le (by omega)] at h
      cases h
    have hdrop := List.drop_eq_getElem_cons hlt
    rw [h] at hdrop
    have hget : (f.job.pass f.protocol)[i]? = some w := by
      rw [List.getElem?_eq_getElem hlt]; exact congrArg some (List.cons.inj hdrop).1.symm
    have htail : (f.job.pass f.protocol).drop (i + 1) = ws := (List.cons.inj hdrop).2.symm
    have hw : Flight.waveHere { f with i := i } = some (waveEffects f.pulse w) := by
      simp [Flight.waveHere, hget]
    have h1 := drive_wave { f with i := i } (waveEffects f.pulse w) hk hw (passMoves f.pulse ws + m)
      (waveEffects f.pulse w).length 0 s (by simp)
    rw [show passMoves f.pulse (w :: ws) + m = (waveEffects f.pulse w).length + 1 + (passMoves f.pulse ws + m) by
      simp [passMoves]; omega]
    rw [h1, ih (i + 1) _ htail]
    simp [State.emitAll_emitAll, waveEffects_append]

/-- From the beginning of a pass to the answer. -/
theorem drive_passes (f : Flight) (m : Nat) :
    ∀ (n k : Nat) (s : State), f.passes = k + n →
      drive (n * passMoves f.pulse (f.job.pass f.protocol) + 1 + m) (s.fly { f with k := k, i := 0, pos := 0 }) =
        (s.emitAll (waveEffects f.pulse (f.job.plan f.protocol n))).answerOk := by
  intro n
  induction n with
  | zero =>
    intro k s h
    rw [show 0 * passMoves f.pulse (f.job.pass f.protocol) + 1 + m = m + 1 by omega, drive_fly_succ,
      drive_done _ _ (by simp [advance, h, State.answerOk])]
    simp [advance, h, Job.plan_zero]
  | succ n ih =>
    intro k s h
    have h1 := drive_pass { f with k := k } (by simp; omega) (n * passMoves f.pulse (f.job.pass f.protocol) + 1 + m)
      (f.job.pass f.protocol) 0 s (by simp)
    rw [show (n + 1) * passMoves f.pulse (f.job.pass f.protocol) + 1 + m =
      passMoves f.pulse (f.job.pass f.protocol) + (n * passMoves f.pulse (f.job.pass f.protocol) + 1 + m) by
      rw [Nat.add_mul]; omega]
    refine h1.trans ?_
    refine (ih (k + 1) _ (by omega)).trans ?_
    simp [State.emitAll_emitAll, Job.plan_succ, waveEffects_append]

/-- The sequencer, driven from its launch, emits the effects of the job's plan and answers `OK` (43_transmitter.md
R129 to R132). -/
theorem drive_launch (j : Job) (n : Nat) (s : State) :
    drive (jobMoves (s.launch j n)) (s.fly (s.launch j n)) =
      (s.emitAll (waveEffects s.pulse (j.plan s.protocol n))).answerOk := by
  have h := drive_passes (s.launch j n) 0 n 0 s (by simp [State.launch])
  simpa [jobMoves, State.launch] using h

/-! ### `perform` -/

/-- A job whose delays are all in range is performed whole. -/
theorem perform_admitted (j : Job) (n : Nat) (s : State) (h : s.delaysInRange j n = true) :
    perform j n s = .next (s.emitAll (waveEffects s.pulse (j.plan s.protocol n))).answerOk := by
  simp [perform, h, drive_launch]

/-- A job with a delay out of range is refused and does nothing (41_waveform.md R83). -/
theorem perform_out_of_range (j : Job) (n : Nat) (s : State) (h : s.delaysInRange j n = false) :
    perform j n s = .next (s.refuse .delayOutOfRange) := by
  simp [perform, h]

/-- Everything `perform` can do. -/
theorem perform_cases (j : Job) (n : Nat) (s : State) :
    (s.delaysInRange j n = true ∧
      perform j n s = .next (s.emitAll (waveEffects s.pulse (j.plan s.protocol n))).answerOk) ∨
    (s.delaysInRange j n = false ∧ perform j n s = .next (s.refuse .delayOutOfRange)) := by
  cases h : s.delaysInRange j n
  · exact .inr ⟨rfl, perform_out_of_range j n s h⟩
  · exact .inl ⟨rfl, perform_admitted j n s h⟩

end Sys2Proof.Machine
end

