-- ==== Sys2Proof/Laws/Exec.lean ====
section
/-! SUPPORT. What the shared checks and each instruction can answer, said once. `exec_cases` is the inversion lemma of
`exec`, `step_cases` that of `step`: invariants and frames are read off them. -/

namespace Sys2Proof.Machine

/-! ### The lifecycle checks -/

theorem whenActive_active {s : State} (k : Result) (h : s.life = .active) : whenActive s k = k := by
  simp [whenActive, h]

theorem whenActive_disposed {s : State} (k : Result) (h : s.life = .disposed) :
    whenActive s k = .next (s.refuse .lineDisposed) := by
  simp [whenActive, h]

theorem whenActive_unconfigured {s : State} (k : Result) (h : s.life = .unconfigured) :
    whenActive s k = .next (s.refuse .notConstructed) := by
  simp [whenActive, h]

theorem whenConstructed_of {s : State} (k : Result) (h : s.life ≠ .unconfigured) : whenConstructed s k = k := by
  cases hl : s.life <;> simp_all [whenConstructed]

theorem whenConstructed_unconfigured {s : State} (k : Result) (h : s.life = .unconfigured) :
    whenConstructed s k = .next (s.refuse .notConstructed) := by
  simp [whenConstructed, h]

/-! ### The claims' vocabulary and the machine's operations -/

theorem State.after_nil (s : State) (a : Answer) : s.after [] s.out a = s.answer a := by
  simp [State.after, State.answer]

theorem State.refuse_after (s : State) (why : RefuseReason) :
    s.refuse why = s.after [] s.out (.failed (.refused why)) := by
  simp [State.after_nil, State.refuse_eq, Answer.failed]

theorem State.fail_after (s : State) (status : Status) : s.fail status = s.after [] s.out (.failed status) := by
  simp [State.after_nil, State.fail_eq, Answer.failed]

theorem State.answerOk_after (s : State) : s.answerOk = s.after [] s.out .done := by
  simp [State.after_nil, State.answerOk_eq, Answer.done]

theorem State.emitAll_answerOk (s : State) (es : List Effect) :
    (s.emitAll es).answerOk = s.after es (levelAfterAll s.out es) .done := rfl

/-! ### The builders -/

/-- A builder gives a codeword that ends in the terminator, or an argument error. -/
theorem buildTypeA_cases (policy : OutOfRangePolicy) (ga : BitVec 5) (ch : BitVec 3) (on : Bool) :
    (∃ cw, buildTypeA policy ga ch on = .ok (cw ++ [.term])) ∨
      policy = .reject ∧ buildTypeA policy ga ch on = .error .invalidArgument := by
  unfold buildTypeA
  split
  · exact .inl ⟨_, rfl⟩
  · cases policy
    · exact .inl ⟨[], rfl⟩
    · exact .inr ⟨rfl, rfl⟩

theorem buildTypeB_cases (policy : OutOfRangePolicy) (ad ch : BitVec 3) (on : Bool) :
    (∃ cw, buildTypeB policy ad ch on = .ok (cw ++ [.term])) ∨
      policy = .reject ∧ buildTypeB policy ad ch on = .error .invalidArgument := by
  unfold buildTypeB
  split
  · exact .inl ⟨_, rfl⟩
  · cases policy
    · exact .inl ⟨[], rfl⟩
    · exact .inr ⟨rfl, rfl⟩

/-! ### What a line-driving command can answer -/

/-- A line-driving command past its lifecycle check: it fails, does nothing, or performs a job. -/
inductive LineAnswer (s : State) : State → Prop where
  | failed (status : Status) (h : status ≠ .ok) (h' : status ≠ .invalidConfiguration) : LineAnswer s (s.fail status)
  | nothing : LineAnswer s s.answerOk
  | performed (j : Job) (n : Nat) (ha : s.life = .active) (hr : s.delaysInRange j n = true) :
      LineAnswer s (s.emitAll (waveEffects s.pulse (j.plan s.protocol n))).answerOk

theorem perform_lineAnswer (j : Job) (n : Nat) (s : State) (ha : s.life = .active) :
    ∃ t, perform j n s = .next t ∧ LineAnswer s t := by
  obtain ⟨hr, h⟩ | ⟨-, h⟩ := perform_cases j n s
  · exact ⟨_, h, .performed j n ha hr⟩
  · exact ⟨_, h, .failed _ (by simp) (by simp)⟩

theorem whenActive_lineAnswer (s : State) (k : Result)
    (hk : s.life = .active → ∃ t, k = .next t ∧ LineAnswer s t) : ∃ t, whenActive s k = .next t ∧ LineAnswer s t := by
  cases h : s.life
  · exact ⟨_, whenActive_unconfigured k h, .failed _ (by simp) (by simp)⟩
  · rw [whenActive_active k h]; exact hk h
  · exact ⟨_, whenActive_disposed k h, .failed _ (by simp) (by simp)⟩

theorem switchA_lineAnswer (policy : OutOfRangePolicy) (ga : BitVec 5) (galen : BitVec 8) (dev : BitVec 3) (on : Bool)
    (s : State) : ∃ t, switchA policy ga galen dev on s = .next t ∧ LineAnswer s t := by
  refine whenActive_lineAnswer s _ fun ha => ?_
  split
  · exact ⟨_, rfl, .failed _ (by simp) (by simp)⟩
  · split
    · exact ⟨_, rfl, .nothing⟩
    · obtain ⟨cw, h⟩ | ⟨-, h⟩ := buildTypeA_cases policy ga dev on
      · rw [h]; exact perform_lineAnswer _ _ s ha
      · rw [h]; exact ⟨_, rfl, .failed _ (by simp) (by simp)⟩

theorem switchB_lineAnswer (policy : OutOfRangePolicy) (ad ch : BitVec 3) (on : Bool) (s : State) :
    ∃ t, switchB policy ad ch on s = .next t ∧ LineAnswer s t := by
  refine whenActive_lineAnswer s _ fun ha => ?_
  obtain ⟨cw, h⟩ | ⟨-, h⟩ := buildTypeB_cases policy ad ch on
  · rw [h]; exact perform_lineAnswer _ _ s ha
  · rw [h]; exact ⟨_, rfl, .failed _ (by simp) (by simp)⟩

theorem exec_lineAnswer (i : Instr) (s : State) (hi : i.drivesLine = true) :
    ∃ t, exec i s = .next t ∧ LineAnswer s t := by
  cases i with
  | transmit _ _ => exact whenActive_lineAnswer s _ (perform_lineAnswer _ _ s)
  | sendSync => exact whenActive_lineAnswer s _ (perform_lineAnswer _ _ s)
  | sendBit0 => exact whenActive_lineAnswer s _ (perform_lineAnswer _ _ s)
  | sendBit1 => exact whenActive_lineAnswer s _ (perform_lineAnswer _ _ s)
  | sendTri0 => exact whenActive_lineAnswer s _ (perform_lineAnswer _ _ s)
  | sendTri1 => exact whenActive_lineAnswer s _ (perform_lineAnswer _ _ s)
  | sendTriF => exact whenActive_lineAnswer s _ (perform_lineAnswer _ _ s)
  | sendTriState _ => exact whenActive_lineAnswer s _ (perform_lineAnswer _ _ s)
  | sendBin _ => exact whenActive_lineAnswer s _ (perform_lineAnswer _ _ s)
  | switchOnA _ _ _ => exact switchA_lineAnswer ..
  | switchOffA _ _ _ => exact switchA_lineAnswer ..
  | switchOnB _ _ => exact switchB_lineAnswer ..
  | switchOffB _ _ => exact switchB_lineAnswer ..
  | setProtocol _ | setPulseLength _ | setRepeatCount _ | getProtocol | getPulseLength | getRepeatCount | dispose
  | buildTypeA _ _ _ | buildTypeB _ _ _ | decToBin _ _ => cases hi

/-! ### What any command can answer -/

/-- Everything `exec` can do. -/
inductive Answered (i : Instr) (s : State) : State → Prop where
  | failed (status : Status) (h : status ≠ .ok) (h' : status ≠ .invalidConfiguration) : Answered i s (s.fail status)
  | line (t : State) (hi : i.drivesLine = true) (h : LineAnswer s t) : Answered i s t
  | protocolSet (pr : Protocol) (hi : i = .setProtocol pr) :
      Answered i s (s.assignProtocol Config.rebaselinePolicy pr).answerOk
  | pulseSet (val : Word) (hi : i = .setPulseLength val) : Answered i s { s with pulse := val }.answerOk
  | repeatSet (val : Word) (hi : i = .setRepeatCount val) (h : 0 ≤ asI32 val) :
      Answered i s { s with repeatCount := val }.answerOk
  | returned (a : Answer) (h : a.status = .ok) (hi : i.drivesLine = false) : Answered i s (s.answer a)
  | disposed (hi : i = .dispose) (h : s.life = .active) : Answered i s s.releaseLine.answerOk

theorem whenConstructed_answered (i : Instr) (s : State) (k : Result)
    (hk : s.life ≠ .unconfigured → ∃ t, k = .next t ∧ Answered i s t) :
    ∃ t, whenConstructed s k = .next t ∧ Answered i s t := by
  by_cases h : s.life = .unconfigured
  · exact ⟨_, whenConstructed_unconfigured k h, .failed _ (by simp) (by simp)⟩
  · rw [whenConstructed_of k h]; exact hk h

/-- Every command answers a next state on every state, in one of the ways `Answered` lists. -/
theorem exec_cases (i : Instr) (s : State) : ∃ t, exec i s = .next t ∧ Answered i s t := by
  by_cases hi : i.drivesLine = true
  · obtain ⟨t, h, ht⟩ := exec_lineAnswer i s hi
    exact ⟨t, h, .line t hi ht⟩
  · cases i with
    | setProtocol pr => exact whenConstructed_answered _ s _ fun _ => ⟨_, rfl, .protocolSet pr rfl⟩
    | setPulseLength val => exact whenConstructed_answered _ s _ fun _ => ⟨_, rfl, .pulseSet val rfl⟩
    | setRepeatCount val =>
      refine whenConstructed_answered _ s _ fun _ => ?_
      split
      · exact ⟨_, rfl, .failed _ (by simp) (by simp)⟩
      · exact ⟨_, rfl, .repeatSet val rfl (by omega)⟩
    | getProtocol => exact whenConstructed_answered _ s _ fun _ => ⟨_, rfl, .returned _ rfl rfl⟩
    | getPulseLength => exact whenConstructed_answered _ s _ fun _ => ⟨_, rfl, .returned _ rfl rfl⟩
    | getRepeatCount => exact whenConstructed_answered _ s _ fun _ => ⟨_, rfl, .returned _ rfl rfl⟩
    | dispose =>
      cases h : s.life with
      | unconfigured =>
        exact ⟨s.refuse .notConstructed, by simp [exec, execDispose, h], .failed _ (by simp) (by simp)⟩
      | active => exact ⟨s.releaseLine.answerOk, by simp [exec, execDispose, h], .disposed rfl h⟩
      | disposed => exact ⟨s.answerOk, by simp [exec, execDispose, h], .returned _ rfl rfl⟩
    | buildTypeA ga ch st =>
      refine whenConstructed_answered _ s _ fun _ => ?_
      obtain ⟨cw, h⟩ | ⟨-, h⟩ := buildTypeA_cases Config.outOfRangePolicy ga ch st
      · rw [h]; exact ⟨_, rfl, .returned _ rfl rfl⟩
      · rw [h]; exact ⟨_, rfl, .failed _ (by simp) (by simp)⟩
    | buildTypeB ad ch st =>
      refine whenConstructed_answered _ s _ fun _ => ?_
      obtain ⟨cw, h⟩ | ⟨-, h⟩ := buildTypeB_cases Config.outOfRangePolicy ad ch st
      · rw [h]; exact ⟨_, rfl, .returned _ rfl rfl⟩
      · rw [h]; exact ⟨_, rfl, .failed _ (by simp) (by simp)⟩
    | decToBin value bitlen =>
      refine whenConstructed_answered _ s _ fun _ => ?_
      split
      · exact ⟨_, rfl, .failed _ (by simp) (by simp)⟩
      · exact ⟨_, rfl, .returned _ rfl rfl⟩
    | transmit _ _ | sendSync | sendBit0 | sendBit1 | sendTri0 | sendTri1 | sendTriF | sendTriState _ | sendBin _
    | switchOnA _ _ _ | switchOffA _ _ _ | switchOnB _ _ | switchOffB _ _ => exact absurd rfl hi

theorem exec_answered {i : Instr} {s t : State} (h : exec i s = .next t) : Answered i s t := by
  obtain ⟨u, hu, hu'⟩ := exec_cases i s
  rw [h] at hu
  cases hu
  exact hu'

/-! ### What one step can do -/

/-- Everything a step can do: nothing, with no packet issued; one move of the command in flight; or one command, decoded
and executed or refused. -/
theorem step_cases {s t : State} (h : step s = .next t) :
    (s.busy = true ∧ ∃ f, s.flight = some f ∧ t = advance f s) ∨
    (s.busy = false ∧ s.pending = [] ∧ t = s) ∨
    (s.busy = false ∧ ∃ p rest, s.pending = p :: rest ∧
      ((∃ why, decode p = .error why ∧ t = (s.accept rest).refuse why) ∨
        ∃ i, decode p = .ok i ∧ Answered i (s.accept rest) t)) := by
  unfold step at h
  split at h
  case isTrue hb =>
    refine .inl ⟨hb, ?_⟩
    unfold proceed at h
    split at h
    · cases h; exact ⟨_, ‹_›, rfl⟩
    · cases h
  case isFalse hb =>
    have hb : s.busy = false := by simpa using hb
    refine .inr ?_
    unfold idle at h
    split at h
    · cases h; exact .inl ⟨hb, ‹_›, rfl⟩
    · refine .inr ⟨hb, _, _, ‹_›, ?_⟩
      unfold serve at h
      split at h
      · cases h; exact .inl ⟨_, ‹_›, rfl⟩
      · exact .inr ⟨_, ‹_›, exec_answered h⟩

/-- Everything one move of the sequencer can do: emit the effect at its position, go on without an effect, or end the
command. -/
theorem advance_cases (f : Flight) (s : State) :
    (∃ es e, f.k < f.passes ∧ f.waveHere = some es ∧ e ∈ es ∧
      advance f s = (s.emit e).fly { f with pos := f.pos + 1 }) ∨
    (f.k < f.passes ∧ ∃ k i, k ≤ f.passes ∧ advance f s = s.fly { f with k := k, i := i, pos := 0 }) ∨
    (f.passes ≤ f.k ∧ advance f s = s.answerOk) := by
  unfold advance
  split
  case isTrue hk =>
    split
    case h_1 es hw =>
      split
      case h_1 e he => exact .inl ⟨es, e, hk, hw, List.mem_of_getElem? he, rfl⟩
      case h_2 => exact .inr (.inl ⟨hk, f.k, _, by omega, rfl⟩)
    case h_2 => exact .inr (.inl ⟨hk, _, _, hk, rfl⟩)
  case isFalse hk => exact .inr (.inr ⟨by omega, rfl⟩)

end Sys2Proof.Machine
end

