-- ==== Sys2Proof/Laws/PerInstr.lean ====
section
/-! SUPPORT. One fact about each instruction as syntax: its packet has no bit its format reserves, and carries a
codeword only in format `C` (30_encoding.md R56). -/

namespace Sys2Proof.Laws.PacketClean

/-- The packet of an instruction is free of reserved bits, and of a codeword outside format `C`. -/
def Statement (i : Instr) : Prop :=
  (encode i).a0 &&& i.opcode.format.reservedA0 = 0#32 ∧ (encode i).a1 &&& i.opcode.format.reservedA1 = 0#32 ∧
    (i.opcode.format ≠ .C → (encode i).cw = [])

/-- A word packed from a field whose bits lie outside a mask has no bit of the mask. -/
theorem setWidth_and_mask {n : Nat} (x : BitVec n) (m : Word) (hm : ∀ j < n, m.getLsbD j = false) :
    x.setWidth 32 &&& m = 0#32 := by
  rw [and_mask_eq_zero_iff]
  intro j hj hmj
  by_cases hn : j < n
  · rw [hm j hn] at hmj; cases hmj
  · simp [hj, BitVec.getLsbD_of_ge x j (by omega)]

theorem packGroup_and_mask (ga : BitVec 5) (galen : BitVec 8) : packGroup ga galen &&& 0xFFFF00E0#32 = 0#32 := by
  have h1 : ga.setWidth 32 &&& 0xFFFF00E0#32 = 0#32 := setWidth_and_mask ga _ (by decide)
  have h2 : (galen.setWidth 32 <<< 8) &&& 0xFFFF00E0#32 = 0#32 := by revert galen; decide
  rw [and_mask_eq_zero_iff] at *
  intro j hj hm
  have g1 := h1 j hj hm
  have g2 := h2 j hj hm
  rw [packGroup, BitVec.getLsbD_or, g1, g2]
  rfl

theorem packChannel_and_mask (ch : BitVec 3) (st : Bool) : packChannel ch st &&& 0xFFFFFEF8#32 = 0#32 := by
  revert ch st; decide

theorem setProtocol (pr : Protocol) : Statement (.setProtocol pr) := by
  refine ⟨?_, BitVec.zero_and, fun _ => rfl⟩
  cases pr <;> decide
theorem setPulseLength (val : Word) : Statement (.setPulseLength val) := ⟨BitVec.and_zero, BitVec.zero_and, fun _ => rfl⟩
theorem setRepeatCount (val : Word) : Statement (.setRepeatCount val) := ⟨BitVec.and_zero, BitVec.zero_and, fun _ => rfl⟩
theorem getProtocol : Statement .getProtocol := ⟨rfl, rfl, fun _ => rfl⟩
theorem getPulseLength : Statement .getPulseLength := ⟨rfl, rfl, fun _ => rfl⟩
theorem getRepeatCount : Statement .getRepeatCount := ⟨rfl, rfl, fun _ => rfl⟩
theorem dispose : Statement .dispose := ⟨rfl, rfl, fun _ => rfl⟩
theorem transmit (hu lu : Word) : Statement (.transmit hu lu) := ⟨BitVec.and_zero, BitVec.and_zero, fun _ => rfl⟩
theorem sendSync : Statement .sendSync := ⟨rfl, rfl, fun _ => rfl⟩
theorem sendBit0 : Statement .sendBit0 := ⟨rfl, rfl, fun _ => rfl⟩
theorem sendBit1 : Statement .sendBit1 := ⟨rfl, rfl, fun _ => rfl⟩
theorem sendTri0 : Statement .sendTri0 := ⟨rfl, rfl, fun _ => rfl⟩
theorem sendTri1 : Statement .sendTri1 := ⟨rfl, rfl, fun _ => rfl⟩
theorem sendTriF : Statement .sendTriF := ⟨rfl, rfl, fun _ => rfl⟩
theorem buildTypeA (ga : BitVec 5) (ch : BitVec 3) (st : Bool) : Statement (.buildTypeA ga ch st) :=
  ⟨setWidth_and_mask ga 0xFFFFFFE0#32 (by decide), packChannel_and_mask ch st, fun _ => rfl⟩
theorem buildTypeB (ad ch : BitVec 3) (st : Bool) : Statement (.buildTypeB ad ch st) :=
  ⟨setWidth_and_mask ad 0xFFFFFFF8#32 (by decide), packChannel_and_mask ch st, fun _ => rfl⟩
theorem switchOnA (ga : BitVec 5) (galen : BitVec 8) (dev : BitVec 3) : Statement (.switchOnA ga galen dev) :=
  ⟨packGroup_and_mask ga galen, setWidth_and_mask dev 0xFFFFFFF8#32 (by decide), fun _ => rfl⟩
theorem switchOffA (ga : BitVec 5) (galen : BitVec 8) (dev : BitVec 3) : Statement (.switchOffA ga galen dev) :=
  ⟨packGroup_and_mask ga galen, setWidth_and_mask dev 0xFFFFFFF8#32 (by decide), fun _ => rfl⟩
theorem switchOnB (ad ch : BitVec 3) : Statement (.switchOnB ad ch) :=
  ⟨setWidth_and_mask ad 0xFFFFFFF8#32 (by decide), setWidth_and_mask ch 0xFFFFFFF8#32 (by decide), fun _ => rfl⟩
theorem switchOffB (ad ch : BitVec 3) : Statement (.switchOffB ad ch) :=
  ⟨setWidth_and_mask ad 0xFFFFFFF8#32 (by decide), setWidth_and_mask ch 0xFFFFFFF8#32 (by decide), fun _ => rfl⟩
theorem sendTriState (cw : Codeword) : Statement (.sendTriState cw) := ⟨BitVec.zero_and, BitVec.zero_and, fun h => absurd rfl h⟩
theorem sendBin (cw : Codeword) : Statement (.sendBin cw) := ⟨BitVec.zero_and, BitVec.zero_and, fun h => absurd rfl h⟩
theorem decToBin (value : Word) (bitlen : BitVec 8) : Statement (.decToBin value bitlen) :=
  ⟨BitVec.and_zero, setWidth_and_mask bitlen 0xFFFFFF00#32 (by decide), fun _ => rfl⟩

end Sys2Proof.Laws.PacketClean
end

