-- ==== Sys2Proof/Laws/Waves.lean ====
section
/-! SUPPORT. The waveforms in the vocabulary of the claims (Safety.lean): when a delay is in range, what a `T` call, a
waveform and a pass emit at a pulse length of `p` microseconds, and what `perform` answers for a waveform and for a
codeword. -/

namespace Sys2Proof.Machine

/-! ### Delays -/

theorem delayInRange_iff (s : State) (u : Nat) : delayInRange (delayOf s.pulse u) = true ↔ ¬ s.delayBad u := by
  unfold delayInRange delayOf asI32 State.delayBad Config.delayMax
  rw [decide_eq_true_iff]
  generalize BitVec.toInt s.pulse * (u : Int) = x
  omega

theorem Transmit.inRange_iff (s : State) (t : Transmit) :
    t.inRange s.pulse = true ↔ ¬ s.delayBad t.high ∧ ¬ s.delayBad t.low := by
  rw [Transmit.inRange, Bool.and_eq_true, delayInRange_iff, delayInRange_iff]

theorem delaysInRange_iff (s : State) (j : Job) (n : Nat) :
    s.delaysInRange j n = true ↔ ∀ t ∈ j.plan s.protocol n, ¬ s.delayBad t.high ∧ ¬ s.delayBad t.low := by
  rw [State.delaysInRange, List.all_eq_true]
  exact forall_congr' fun t => forall_congr' fun _ => Transmit.inRange_iff s t

/-- A pulse length whose longest delay is in range has every shorter one in range. -/
theorem State.delayBad_mono {s : State} {u v p : Nat} (hp : s.pulse.toInt = p) (huv : u ≤ v) (h : ¬ s.delayBad v) :
    ¬ s.delayBad u := by
  unfold State.delayBad at *
  rw [hp] at *
  have h1 : (p : Int) * u ≤ p * v := by exact_mod_cast Nat.mul_le_mul_left p huv
  have h2 : (0 : Int) ≤ p * u := by positivity
  omega

/-- A pulse length whose one-unit delay is in range is not negative. -/
theorem State.exists_pulse {s : State} (h : ¬ s.delayBad 1) : ∃ p : Nat, s.pulse.toInt = p := by
  unfold State.delayBad at h
  exact ⟨s.pulse.toInt.toNat, by omega⟩

theorem delayOf_toNat {pulse : Word} {p : Nat} (u : Nat) (h : pulse.toInt = p) : (delayOf pulse u).toNat = p * u := by
  unfold delayOf asI32
  rw [h, ← Int.natCast_mul, Int.toNat_natCast]

/-! ### What is emitted -/

theorem transmit_effects {pulse : Word} {p : Nat} (hp : pulse.toInt = p) (h l : Nat) :
    Transmit.effects pulse ⟨h, l⟩ = transmitAt p h l := by
  simp [Transmit.effects, transmitAt, delayOf_toNat _ hp]

theorem waveSync_effects {pulse : Word} {p : Nat} (hp : pulse.toInt = p) (pr : Protocol) :
    waveEffects pulse (waveSync pr) = syncSegment pr p := by
  cases pr <;> simp [waveEffects, waveSync, protoTable, transmit_effects hp, syncSegment, syncLow]

theorem waveTri_effects {pulse : Word} {p : Nat} (hp : pulse.toInt = p) (x : Symbol) :
    waveEffects pulse (waveTri x) = triSegments p x := by
  cases x <;> simp [waveEffects, waveTri, waveTri0, waveTri1, waveTriF, transmit_effects hp, triSegments]

theorem waveBin_effects {pulse : Word} {p : Nat} (hp : pulse.toInt = p) (pr : Protocol) (x : Symbol) :
    waveEffects pulse (waveBin pr x) = bitSegments pr p x := by
  cases pr <;> cases x <;>
    simp [waveEffects, waveBin, waveBit0, waveBit1, protoTable, transmit_effects hp, bitSegments]

theorem beforeTerm_eq (cw : Codeword) : beforeTerm cw = cw.takeWhile fun x => x != .term := by
  induction cw with
  | nil => rfl
  | cons x cw ih => cases x <;> simp [beforeTerm, ih]

theorem flatten_map_effects {pulse : Word} (f : Symbol → List Transmit) (g : Symbol → List Effect)
    (h : ∀ x, waveEffects pulse (f x) = g x) (cw : Codeword) :
    waveEffects pulse (cw.map f).flatten = cw.flatMap g := by
  induction cw with
  | nil => rfl
  | cons x cw ih => simp [waveEffects_append, h, ih]

theorem triState_effects {pulse : Word} {p : Nat} (hp : pulse.toInt = p) (pr : Protocol) (n : Nat) (cw : Codeword) :
    waveEffects pulse ((Job.triState cw).plan pr n) =
      passesOf n ((cw.takeWhile fun x => x != .term).flatMap (triSegments p)) pr p := by
  rw [waveEffects_plan, Job.pass, triPass, beforeTerm_eq, List.flatten_append, waveEffects_append,
    flatten_map_effects _ _ (waveTri_effects hp), List.flatten_singleton, waveSync_effects hp]
  rfl

theorem binary_effects {pulse : Word} {p : Nat} (hp : pulse.toInt = p) (pr : Protocol) (n : Nat) (cw : Codeword) :
    waveEffects pulse ((Job.binary cw).plan pr n) = passesOf n (cw.flatMap (bitSegments pr p)) pr p := by
  rw [waveEffects_plan, Job.pass, binPass, List.flatten_append, waveEffects_append,
    flatten_map_effects _ _ (waveBin_effects hp pr), List.flatten_singleton, waveSync_effects hp]
  rfl

/-! ### Codeword jobs -/

/-- A job of codeword passes: each pass ends in the sync, and no unit of it is longer than the sync's low part. -/
def Job.isPasses (pr : Protocol) (j : Job) : Prop :=
  waveSync pr ∈ j.pass pr ∧ ∀ t ∈ (j.pass pr).flatten, t.high ≤ syncLow pr ∧ t.low ≤ syncLow pr

theorem waveSync_short (pr : Protocol) : ∀ t ∈ waveSync pr, t.high ≤ syncLow pr ∧ t.low ≤ syncLow pr := by
  cases pr <;> simp [waveSync, protoTable, syncLow]

theorem triState_isPasses (pr : Protocol) (cw : Codeword) : (Job.triState cw).isPasses pr := by
  refine ⟨by simp [Job.pass, triPass], ?_⟩
  intro t ht
  simp only [Job.pass, triPass, List.flatten_append, List.flatten_singleton, List.mem_append, List.mem_flatten,
    List.mem_map] at ht
  rcases ht with ⟨_, ⟨x, -, rfl⟩, ht⟩ | ht
  · cases x <;> simp [waveTri, waveTri0, waveTri1, waveTriF] at ht <;>
      (first | subst ht | rcases ht with rfl | rfl) <;> cases pr <;> simp [syncLow]
  · exact waveSync_short pr t ht

theorem binary_isPasses (pr : Protocol) (cw : Codeword) : (Job.binary cw).isPasses pr := by
  refine ⟨by simp [Job.pass, binPass], ?_⟩
  intro t ht
  simp only [Job.pass, binPass, List.flatten_append, List.flatten_singleton, List.mem_append, List.mem_flatten,
    List.mem_map] at ht
  rcases ht with ⟨_, ⟨x, -, rfl⟩, ht⟩ | ht
  · cases pr <;> cases x <;> simp [waveBin, waveBit0, waveBit1, protoTable] at ht <;> subst ht <;> simp [syncLow]
  · exact waveSync_short pr t ht

theorem Job.mem_plan {pr : Protocol} {n : Nat} {j : Job} {t : Transmit} :
    t ∈ j.plan pr n ↔ n ≠ 0 ∧ t ∈ (j.pass pr).flatten := by
  simp only [Job.plan, List.mem_flatten, List.mem_replicate]
  constructor
  · rintro ⟨_, ⟨hn, rfl⟩, h⟩; exact ⟨hn, by simpa using h⟩
  · rintro ⟨hn, h⟩; exact ⟨_, ⟨hn, rfl⟩, by simpa using h⟩

theorem Job.sync_mem_plan {pr : Protocol} {n : Nat} {j : Job} (hj : j.isPasses pr) (hn : n ≠ 0) :
    (⟨1, syncLow pr⟩ : Transmit) ∈ j.plan pr n := by
  refine Job.mem_plan.mpr ⟨hn, List.mem_flatten.mpr ⟨_, hj.1, ?_⟩⟩
  cases pr <;> simp [waveSync, protoTable, syncLow]

/-- A codeword job is admitted when it makes no pass or its sync is in range. -/
theorem passes_admitted {s : State} {j : Job} {n p : Nat} (hj : j.isPasses s.protocol)
    (h : n = 0 ∨ s.pulse.toInt = p ∧ ¬ s.delayBad (syncLow s.protocol)) : s.delaysInRange j n = true := by
  rw [delaysInRange_iff]
  intro t ht
  obtain ⟨hn, ht⟩ := Job.mem_plan.mp ht
  rcases h with h | ⟨hp, h⟩
  · exact absurd h hn
  · exact ⟨State.delayBad_mono hp (hj.2 t ht).1 h, State.delayBad_mono hp (hj.2 t ht).2 h⟩

/-- A codeword job that makes a pass is refused when its sync is out of range. -/
theorem passes_refused {s : State} {j : Job} {n : Nat} (hj : j.isPasses s.protocol) (hn : n ≠ 0)
    (h : s.delayBad 1 ∨ s.delayBad (syncLow s.protocol)) : s.delaysInRange j n = false := by
  rw [Bool.eq_false_iff]
  intro hd
  have := (delaysInRange_iff s j n).mp hd _ (Job.sync_mem_plan hj hn)
  tauto

/-- The level a codeword job leaves OUT at. -/
theorem levelAfterAll_passes {s : State} {j : Job} {n : Nat} (hj : j.isPasses s.protocol) (before : Level) :
    levelAfterAll before (waveEffects s.pulse (j.plan s.protocol n)) = levelAfterPasses n before := by
  rw [levelAfterAll_waveEffects, levelAfterPasses]
  by_cases hn : n = 0
  · subst hn; simp [Job.plan_zero]
  · rw [if_neg hn, if_neg (List.ne_nil_of_mem (Job.sync_mem_plan hj hn))]

theorem perform_passes {s : State} {j : Job} {n p : Nat} (hj : j.isPasses s.protocol)
    (h : n = 0 ∨ s.pulse.toInt = p ∧ ¬ s.delayBad (syncLow s.protocol)) :
    perform j n s =
      .next (s.after (waveEffects s.pulse (j.plan s.protocol n)) (levelAfterPasses n s.out) .done) := by
  rw [perform_admitted _ _ _ (passes_admitted hj h), State.emitAll_answerOk, levelAfterAll_passes hj]

/-- SEND_TRI_STATE and the SWITCH commands, past their checks. -/
theorem perform_triState {s : State} {n p : Nat} (cw : Codeword)
    (h : n = 0 ∨ s.pulse.toInt = p ∧ ¬ s.delayBad (syncLow s.protocol)) :
    perform (.triState cw) n s = .next (s.after
      (passesOf n ((cw.takeWhile fun x => x != .term).flatMap (triSegments p)) s.protocol p)
      (levelAfterPasses n s.out) .done) := by
  rw [perform_passes (triState_isPasses _ cw) h]
  rcases h with rfl | ⟨hp, -⟩
  · simp [Job.plan_zero, passesOf]
  · rw [triState_effects hp]

/-- SEND_BIN, past its checks. -/
theorem perform_binary {s : State} {n p : Nat} (cw : Codeword)
    (h : n = 0 ∨ s.pulse.toInt = p ∧ ¬ s.delayBad (syncLow s.protocol)) :
    perform (.binary cw) n s = .next (s.after (passesOf n (cw.flatMap (bitSegments s.protocol p)) s.protocol p)
      (levelAfterPasses n s.out) .done) := by
  rw [perform_passes (binary_isPasses _ cw) h]
  rcases h with rfl | ⟨hp, -⟩
  · simp [Job.plan_zero, passesOf]
  · rw [binary_effects hp]

/-- A job with a delay out of range, in the vocabulary of the claims. -/
theorem perform_refused {s : State} {j : Job} {n : Nat} (h : s.delaysInRange j n = false) :
    perform j n s = .next (s.after [] s.out (.failed (.refused .delayOutOfRange))) := by
  rw [perform_out_of_range _ _ _ h, State.refuse_after]

/-! ### Single waveforms -/

theorem waveform_plan (pr : Protocol) (w : List Transmit) : (Job.waveform w).plan pr 1 = w := by
  simp [Job.plan, Job.pass]

/-- A waveform whose delays are all in range. -/
theorem perform_waveform {s : State} {w : List Transmit} (hw : w ≠ [])
    (h : ∀ t ∈ w, ¬ s.delayBad t.high ∧ ¬ s.delayBad t.low) :
    perform (.waveform w) 1 s = .next (s.after (waveEffects s.pulse w) .low .done) := by
  rw [perform_admitted _ _ _ ((delaysInRange_iff ..).mpr (by rwa [waveform_plan])), waveform_plan,
    State.emitAll_answerOk, levelAfterAll_waveEffects, if_neg hw]

/-- A waveform with a delay out of range. -/
theorem perform_waveform_refused {s : State} {w : List Transmit} (h : ∃ t ∈ w, s.delayBad t.high ∨ s.delayBad t.low) :
    perform (.waveform w) 1 s = .next (s.after [] s.out (.failed (.refused .delayOutOfRange))) := by
  refine perform_refused (Bool.eq_false_iff.mpr fun hd => ?_)
  obtain ⟨t, ht, hb⟩ := h
  have := (delaysInRange_iff ..).mp hd t (by rwa [waveform_plan])
  tauto

end Sys2Proof.Machine
end

