-- ==== Sys2Proof/Machine/Assembly.lean ====
section
/-! DEFINITION. The spec's assembly syntax (30_encoding.md R67, R68): one command per line, read from its
characters. What the notation leaves open (spaces, comments, a sign, a number too wide for its field) is said in
notes/assumptions/9.md. -/

namespace Sys2Proof.Machine

/-- A line of assembly: a real command or a pseudo-command. -/
inductive AsmLine where
  | real (i : Instr)
  | pseudo (p : Pseudo)
  deriving DecidableEq, Repr

/-- The characters of a line before a `;` comment. -/
def uncommented : List Char → List Char
  | [] => []
  | c :: cs => if c = ';' then [] else c :: uncommented cs

/-- A character that separates the mnemonic and the operands. -/
def isSeparator (c : Char) : Bool := c = ' ' || c = ',' || c = '\t'

/-- The words of a line, `word` being the one under way, last character first. -/
def splitWords (word : List Char) : List Char → List (List Char)
  | [] => if word = [] then [] else [word.reverse]
  | c :: cs =>
    if isSeparator c then
      if word = [] then splitWords [] cs else word.reverse :: splitWords [] cs
    else splitWords (c :: word) cs

/-- The value of a digit in a base of at most 16. -/
def digitValue (base : Nat) (c : Char) : Option Nat :=
  let v :=
    if '0' ≤ c ∧ c ≤ '9' then c.toNat - '0'.toNat
    else if 'a' ≤ c ∧ c ≤ 'f' then c.toNat - 'a'.toNat + 10
    else if 'A' ≤ c ∧ c ≤ 'F' then c.toNat - 'A'.toNat + 10
    else 16
  if v < base then some v else none

/-- A number in a base, `acc` being what the digits so far amount to. -/
def numberFrom (base acc : Nat) : List Char → Option Nat
  | [] => some acc
  | c :: cs =>
    match digitValue base c with
    | some d => numberFrom base (acc * base + d) cs
    | none => none

/-- A decimal or `0x` integer (30_encoding.md R67). -/
def readNat : List Char → Option Nat
  | [] => none
  | '0' :: 'x' :: c :: cs => numberFrom 16 0 (c :: cs)
  | c :: cs => numberFrom 10 0 (c :: cs)

/-- An unsigned field of `n` bits. -/
def readField (n : Nat) (w : List Char) : Option (BitVec n) :=
  match readNat w with
  | some v => if v < 2 ^ n then some (BitVec.ofNat n v) else none
  | none => none

/-- `VAL`: an unsigned 32-bit pattern, or a minus sign and a magnitude of at most `2^31` (the listing of program P4
writes `-1`). -/
def readVal : List Char → Option Word
  | '-' :: cs =>
    match readNat cs with
    | some v => if v ≤ 2 ^ 31 then some (-(BitVec.ofNat 32 v)) else none
    | none => none
  | cs => readField 32 cs

/-- `P1` or `P2`. -/
def readProtocol (w : List Char) : Option Protocol :=
  if w = ['P', '1'] then some .p1 else if w = ['P', '2'] then some .p2 else none

/-- `on` or `off`. -/
def readStatus (w : List Char) : Option Bool :=
  if w = ['o', 'n'] then some true else if w = ['o', 'f', 'f'] then some false else none

/-- `None` for `DEV = 0`, or an integer (30_encoding.md R67). -/
def readDevice (w : List Char) : Option (BitVec 3) :=
  if w = ['N', 'o', 'n', 'e'] then some 0#3 else readField 3 w

/-- The characters of a word between two `quote` characters. -/
def unquote (quote : Char) : List Char → Option (List Char)
  | [] => none
  | c :: cs =>
    if c = quote ∧ cs.getLast? = some quote then some cs.dropLast else none

/-- The switches of a group-address string, leftmost first. -/
def readSwitches : List Char → Option (List Bool)
  | [] => some []
  | c :: cs =>
    match (if c = '1' then some true else if c = '0' then some false else none), readSwitches cs with
    | some b, some bs => some (b :: bs)
    | _, _ => none

/-- `GA` of a string: the leftmost character is `GA[0]`, a missing one is 0, and those beyond index 4 are not
carried (30_encoding.md R61). -/
def groupBits (bs : List Bool) : BitVec 5 :=
  BitVec.ofNat 5
    (((List.range 5).map fun j => if bs.getD j false then 2 ^ j else 0).sum)

/-- A group address of a SWITCH command: its bits and its length (30_encoding.md R61, R67). -/
def readGroup (w : List Char) : Option (BitVec 5 × BitVec 8) :=
  match unquote '"' w with
  | some cs =>
    match readSwitches cs with
    | some bs => if bs.length < 256 then some (groupBits bs, BitVec.ofNat 8 bs.length) else none
    | none => none
  | none => none

/-- A group address of BUILD_TYPE_A: exactly 5 characters (30_encoding.md R67). -/
def readGroup5 (w : List Char) : Option (BitVec 5) :=
  match readGroup w with
  | some (ga, galen) => if galen = 5#8 then some ga else none
  | none => none

/-- `0`, `1`, `F` and `.` for `TERM` (30_encoding.md R67). -/
def readSymbol (c : Char) : Option Symbol :=
  if c = '0' then some .zero
  else if c = '1' then some .one
  else if c = 'F' then some .floating
  else if c = '.' then some .term
  else none

/-- The symbols of a codeword string. -/
def readSymbols : List Char → Option Codeword
  | [] => some []
  | c :: cs =>
    match readSymbol c, readSymbols cs with
    | some s, some ss => some (s :: ss)
    | _, _ => none

/-- A codeword in single quotes, of at most `CW_MAX` symbols (30_encoding.md R62, R67). -/
def readCodeword (w : List Char) : Option Codeword :=
  match unquote '\'' w with
  | some cs =>
    match readSymbols cs with
    | some cw => if cw.length ≤ Config.cwMax then some cw else none
    | none => none
  | none => none

/-- The command a mnemonic makes of its operands (the table of 30_encoding.md R67). -/
def readReal (m : List Char) (ws : List (List Char)) : Option Instr :=
  match ws with
  | [] =>
    if m = "GET_PROTOCOL".toList then some .getProtocol
    else if m = "GET_PULSE_LENGTH".toList then some .getPulseLength
    else if m = "GET_REPEAT_COUNT".toList then some .getRepeatCount
    else if m = "DISPOSE".toList then some .dispose
    else if m = "SEND_SYNC".toList then some .sendSync
    else if m = "SEND_BIT0".toList then some .sendBit0
    else if m = "SEND_BIT1".toList then some .sendBit1
    else if m = "SEND_TRI_0".toList then some .sendTri0
    else if m = "SEND_TRI_1".toList then some .sendTri1
    else if m = "SEND_TRI_F".toList then some .sendTriF
    else none
  | [a] =>
    if m = "SET_PROTOCOL".toList then (readProtocol a).map .setProtocol
    else if m = "SET_PULSE_LENGTH".toList then (readVal a).map .setPulseLength
    else if m = "SET_REPEAT_COUNT".toList then (readVal a).map .setRepeatCount
    else if m = "SEND_TRI_STATE".toList then (readCodeword a).map .sendTriState
    else if m = "SEND_BIN".toList then (readCodeword a).map .sendBin
    else none
  | [a, b] =>
    if m = "TRANSMIT".toList then
      match readField 32 a, readField 32 b with
      | some hu, some lu => some (.transmit hu lu)
      | _, _ => none
    else if m = "SWITCH_ON_A".toList then
      match readGroup a, readDevice b with
      | some (ga, galen), some dev => some (.switchOnA ga galen dev)
      | _, _ => none
    else if m = "SWITCH_OFF_A".toList then
      match readGroup a, readDevice b with
      | some (ga, galen), some dev => some (.switchOffA ga galen dev)
      | _, _ => none
    else if m = "SWITCH_ON_B".toList then
      match readField 3 a, readField 3 b with
      | some ad, some ch => some (.switchOnB ad ch)
      | _, _ => none
    else if m = "SWITCH_OFF_B".toList then
      match readField 3 a, readField 3 b with
      | some ad, some ch => some (.switchOffB ad ch)
      | _, _ => none
    else if m = "DEC_TO_BIN".toList then
      match readField 32 a, readField 8 b with
      | some value, some bitlen => some (.decToBin value bitlen)
      | _, _ => none
    else none
  | [a, b, c] =>
    if m = "BUILD_TYPE_A".toList then
      match readGroup5 a, readField 3 b, readStatus c with
      | some ga, some ch, some st => some (.buildTypeA ga ch st)
      | _, _, _ => none
    else if m = "BUILD_TYPE_B".toList then
      match readField 3 a, readField 3 b, readStatus c with
      | some ad, some ch, some st => some (.buildTypeB ad ch st)
      | _, _, _ => none
    else none
  | _ => none

/-- The pseudo-command a mnemonic makes of its operands (30_encoding.md R68). -/
def readPseudo (m : List Char) (ws : List (List Char)) : Option Pseudo :=
  match ws with
  | [a, b] =>
    if m = "SEND_DEC".toList then
      match readField 32 a, readField 8 b with
      | some value, some bitlen => some (.sendDec value bitlen)
      | _, _ => none
    else none
  | [a, b, c] =>
    if m = "SEND_CODE_A".toList then
      match readGroup5 a, readField 3 b, readStatus c with
      | some ga, some ch, some st => some (.sendCodeA ga ch st)
      | _, _, _ => none
    else if m = "SEND_CODE_B".toList then
      match readField 3 a, readField 3 b, readStatus c with
      | some ad, some ch, some st => some (.sendCodeB ad ch st)
      | _, _, _ => none
    else if m = "SWITCH_B".toList then
      match readField 3 a, readField 3 b, readStatus c with
      | some ad, some ch, some st => some (.switchB ad ch st)
      | _, _, _ => none
    else none
  | _ => none

/-- The command or pseudo-command a line of assembly stands for (30_encoding.md R67, R68). -/
def assemble (line : List Char) : Option AsmLine :=
  match splitWords [] (uncommented line) with
  | [] => none
  | m :: ws =>
    match readReal m ws with
    | some i => some (.real i)
    | none => (readPseudo m ws).map .pseudo

end Sys2Proof.Machine
end

