-- ==== Sys2Proof/Tests/Slice0.lean ====
section
/-! SUPPORT. The model's own tests. Each expected value is a line of 95_test_vectors.md, named in the test's comment, or
the example of the rule named there. The last part holds, for each statement with hypotheses, a state and operands that
meet them. -/

namespace Sys2Proof.Tests

open Sys2Proof Sys2Proof.Machine

/-! ### Helpers -/

/-- The state after construction with OUT high and the registers given: the `state` columns of 95_test_vectors.md. -/
def start (pr : Protocol) (pulse repeatCount : Word) : State :=
  { State.reset with protocol := pr, pulse := pulse, repeatCount := repeatCount, out := .high }

def disposed : State := { start .p1 350#32 1#32 with life := .disposed, trace := [.release] }

def unconfigured : State := { start .p1 350#32 1#32 with life := .unconfigured }

/-- A trace written as pairs: `(h, l)` is `Hh Ll`. -/
def hl (ps : List (Nat × Nat)) : List Effect :=
  ps.flatMap fun p => [.write .high, .delay p.1, .write .low, .delay p.2]

/-- What the outside sees of a command: its trace and its answers. -/
def seen : Result → Option (List Effect × List Answer)
  | .next t => some (t.trace, t.answers)
  | .fault _ => none
  | .refused _ => none

/-- The registers a command leaves: `cfg.protocol`, `cfg.pulse`, `cfg.repeat`, `life`. -/
def regs : Result → Option (Protocol × Word × Word × Life)
  | .next t => some (t.protocol, t.pulse, t.repeatCount, t.life)
  | .fault _ => none
  | .refused _ => none

def okay : Answer := ⟨.ok, 0#32, []⟩
def value (v : Word) : Answer := ⟨.ok, v, []⟩
def word (cw : Codeword) : Answer := ⟨.ok, 0#32, cw⟩
def error (status : Status) : Answer := ⟨status, 0#32, []⟩
def refusal (why : RefuseReason) : Answer := ⟨.refused why, 0#32, []⟩

/-- `0`, `1`, `F` and `.` of 30_encoding.md R67. -/
abbrev z : Symbol := .zero
abbrev u : Symbol := .one
abbrev f : Symbol := .floating
abbrev e : Symbol := .term

/-! ### WellFormed: an ill-formed instruction for each check -/

/-- R62: 257 symbols are one too many. -/
theorem test_send_tri_state_of_257_is_ill_formed :
    (Instr.sendTriState (List.replicate 257 z)).wellFormed = false := by decide +kernel

theorem test_send_bin_of_257_is_ill_formed : (Instr.sendBin (List.replicate 257 z)).wellFormed = false := by
  decide +kernel

theorem test_send_tri_state_of_256_is_well_formed :
    (Instr.sendTriState (List.replicate 256 z)).wellFormed = true := by decide +kernel

/-- X7 (R61): a group address of length 3 has no bits 3 and 4. -/
theorem test_switch_on_a_with_stray_bits_is_ill_formed : (Instr.switchOnA 0b11111 3 1).wellFormed = false := by decide

theorem test_switch_off_a_with_stray_bit_is_ill_formed : (Instr.switchOffA 0b10000 4 1).wellFormed = false := by decide

/-- R61: beyond 5 the length alone decides, so no bit is stray. -/
theorem test_switch_on_a_of_length_6_is_well_formed : (Instr.switchOnA 0b11111 6 1).wellFormed = true := by decide

/-! ### Decoding: packets written out from 30_encoding.md R56 and R58 -/

/-- `decode`, as an option, to compare. -/
def read (op : BitVec 8) (a0 a1 : Word) (cw : List (BitVec 2)) : Option Instr :=
  match decode ⟨op, a0, a1, cw⟩ with
  | .ok i => some i
  | .error _ => none

def rejected (op : BitVec 8) (a0 a1 : Word) (cw : List (BitVec 2)) : Option RefuseReason :=
  match decode ⟨op, a0, a1, cw⟩ with
  | .ok _ => none
  | .error why => some why

theorem test_decode_set_protocol : read 0x01 0x1 0 [] = some (.setProtocol .p2) := by decide
theorem test_decode_set_pulse_length : read 0x02 0xFFFFFFFF 0 [] = some (.setPulseLength 0xFFFFFFFF#32) := by decide
theorem test_decode_set_repeat_count : read 0x03 0x0000000A 0 [] = some (.setRepeatCount 10#32) := by decide
theorem test_decode_get_protocol : read 0x04 0 0 [] = some .getProtocol := by decide
theorem test_decode_get_pulse_length : read 0x05 0 0 [] = some .getPulseLength := by decide
theorem test_decode_get_repeat_count : read 0x06 0 0 [] = some .getRepeatCount := by decide
theorem test_decode_dispose : read 0x0F 0 0 [] = some .dispose := by decide
theorem test_decode_transmit : read 0x10 0x2 0x80000005 [] = some (.transmit 2#32 0x80000005#32) := by decide
theorem test_decode_send_sync : read 0x11 0 0 [] = some .sendSync := by decide
theorem test_decode_send_bit0 : read 0x12 0 0 [] = some .sendBit0 := by decide
theorem test_decode_send_bit1 : read 0x13 0 0 [] = some .sendBit1 := by decide
theorem test_decode_send_tri_0 : read 0x14 0 0 [] = some .sendTri0 := by decide
theorem test_decode_send_tri_1 : read 0x15 0 0 [] = some .sendTri1 := by decide
theorem test_decode_send_tri_f : read 0x16 0 0 [] = some .sendTriF := by decide
/-- B3. -/
theorem test_decode_build_type_a : read 0x20 0x0000000A 0x00000103 [] = some (.buildTypeA 0b01010 3 true) := by decide
/-- B8. -/
theorem test_decode_build_type_b : read 0x21 0x00000001 0x00000103 [] = some (.buildTypeB 1 3 true) := by decide
/-- X6. -/
theorem test_decode_switch_on_a : read 0x30 0x00000307 0x1 [] = some (.switchOnA 0b00111 3 1) := by decide
/-- X4. -/
theorem test_decode_switch_off_a : read 0x31 0x0000061F 0x0 [] = some (.switchOffA 0b11111 6 0) := by decide
/-- X9. -/
theorem test_decode_switch_on_b : read 0x32 0x1 0x3 [] = some (.switchOnB 1 3) := by decide
/-- Program P2. -/
theorem test_decode_switch_off_b : read 0x33 0x2 0x2 [] = some (.switchOffB 2 2) := by decide
/-- Program P5. -/
theorem test_decode_send_tri_state : read 0x34 0 0 [0b00, 0b10, 0b11] = some (.sendTriState [z, f, e]) := by decide
/-- Program P3. -/
theorem test_decode_send_bin :
    read 0x35 0 0 [0b11, 0b11, 0b11, 0b11, 0b11, 0b01, 0b00, 0b01, 0b11] =
      some (.sendBin [e, e, e, e, e, u, z, u, e]) := by decide
/-- BN1. -/
theorem test_decode_dec_to_bin : read 0x40 0x5 0x8 [] = some (.decToBin 5 8) := by decide

/-- C1d. -/
theorem test_reject_unassigned : rejected 0x00 0 0 [] = some .unassignedOpcode := by decide
/-- C2d. -/
theorem test_reject_reserved : rejected 0x01 0x2 0 [] = some .reservedBitSet := by decide
/-- C3d. -/
theorem test_reject_codeword : rejected 0x11 0 0 [0b00] = some .unexpectedCodeword := by decide
/-- C4d. -/
theorem test_reject_long : rejected 0x34 0 0 (List.replicate 257 0b00) = some .codewordTooLong := by decide +kernel
/-- X7. -/
theorem test_reject_stray : rejected 0x30 0x0000031F 0x1 [] = some .groupAddressBitBeyondLength := by decide
/-- R64's order: the reserved bit is found before the codeword. -/
theorem test_reject_order : rejected 0x11 0x1 0 [0b00] = some .reservedBitSet := by decide

/-- A packet as one number (notes/assumptions/3.md): B1's packet, its fields at bits 7..0, 39..8 and 71..40. -/
theorem test_table_word_build_type_a :
    decodeTableWord 72 0x000001010000001F20 = some (.buildTypeA 0b11111 1 true) := by decide

/-- The same, with a codeword: `'0F.'` is `00 10 11` from bit 72 up. -/
theorem test_table_word_send_tri_state :
    decodeTableWord 78 (0x34 + 0b111000 * 2 ^ 72) = some (.sendTriState [z, f, e]) := by decide

/-- A number shorter than a packet: the missing bits are 0. -/
theorem test_table_word_short : decodeTableWord 8 0x34 = some (.sendTriState []) := by decide

/-! ### Configuration and accessors (95_test_vectors.md §2.3, with R69) -/

/-- CF1. -/
theorem test_set_protocol_keeps_positive_pulse :
    regs (exec (.setProtocol .p2) (start .p1 350#32 0#32)) = some (.p2, 350#32, 0#32, .active) := by decide
/-- CF3. -/
theorem test_set_protocol_rebaselines :
    regs (exec (.setProtocol .p2) (start .p2 (-7#32) 0#32)) = some (.p2, 650#32, 0#32, .active) := by decide
/-- CF5. -/
theorem test_set_pulse_length :
    regs (exec (.setPulseLength 0xFFFFFFFF#32) (start .p1 350#32 0#32)) = some (.p1, -1#32, 0#32, .active) := by decide
/-- CF6. -/
theorem test_set_repeat_count :
    regs (exec (.setRepeatCount 10#32) (start .p1 350#32 0#32)) = some (.p1, 350#32, 10#32, .active) := by decide
/-- CF7. -/
theorem test_set_repeat_count_negative :
    regs (exec (.setRepeatCount 0xFFFFFFFF#32) (start .p1 350#32 4#32)) = some (.p1, 350#32, 4#32, .active) ∧
      seen (exec (.setRepeatCount 0xFFFFFFFF#32) (start .p1 350#32 4#32)) = some ([], [error .invalidArgument]) := by
  decide
/-- R120: P2 is 1. -/
theorem test_get_protocol : seen (exec .getProtocol (start .p2 350#32 0#32)) = some ([], [value 1#32]) := by decide
/-- CF12. -/
theorem test_get_protocol_unconfigured :
    seen (exec .getProtocol unconfigured) = some ([], [refusal .notConstructed]) := by decide
/-- CF10. -/
theorem test_get_pulse_length :
    seen (exec .getPulseLength (start .p1 (-1#32) 0#32)) = some ([], [value 0xFFFFFFFF#32]) := by decide
/-- Program P4. -/
theorem test_get_repeat_count_disposed :
    seen (exec .getRepeatCount disposed) = some ([.release], [value 1#32]) := by decide
/-- P1d. -/
theorem test_dispose :
    seen (exec .dispose (start .p1 350#32 1#32)) = some ([.release], [okay]) ∧
      regs (exec .dispose (start .p1 350#32 1#32)) = some (.p1, 350#32, 1#32, .disposed) := by decide
/-- P2d. -/
theorem test_dispose_again : seen (exec .dispose disposed) = some ([.release], [okay]) := by decide
/-- P3d. -/
theorem test_set_repeat_count_disposed :
    regs (exec (.setRepeatCount 2#32) disposed) = some (.p1, 350#32, 2#32, .disposed) := by decide

/-! ### Waveforms (95_test_vectors.md §2.1) -/

/-- W13. -/
theorem test_transmit :
    seen (exec (.transmit 2#32 5#32) (start .p1 350#32 0#32)) = some (hl [(700, 1750)], [okay]) := by decide
/-- W18, W19. -/
theorem test_transmit_bounds :
    seen (exec (.transmit 3#32 1#32) (start .p1 2147483647#32 0#32)) = some ([], [refusal .delayOutOfRange]) ∧
      seen (exec (.transmit 2#32 1#32) (start .p1 2147483647#32 0#32)) =
        some (hl [(4294967294, 2147483647)], [okay]) := by decide
/-- W20. -/
theorem test_send_sync :
    seen (exec .sendSync (start .p2 350#32 0#32)) = some (hl [(350, 3500)], [okay]) := by decide
/-- W16. -/
theorem test_send_sync_negative :
    seen (exec .sendSync (start .p1 (-1#32) 0#32)) = some ([], [refusal .delayOutOfRange]) := by decide
/-- W2, W8. -/
theorem test_send_bit0 :
    seen (exec .sendBit0 (start .p1 350#32 0#32)) = some (hl [(350, 1050)], [okay]) ∧
      seen (exec .sendBit0 (start .p2 650#32 0#32)) = some (hl [(650, 1300)], [okay]) := by decide
/-- W9, W21. -/
theorem test_send_bit1 :
    seen (exec .sendBit1 (start .p2 650#32 0#32)) = some (hl [(1300, 650)], [okay]) ∧
      seen (exec .sendBit1 disposed) = some ([.release], [refusal .lineDisposed]) := by decide
/-- W10. -/
theorem test_send_tri_0 :
    seen (exec .sendTri0 (start .p2 650#32 0#32)) = some (hl [(650, 1950), (650, 1950)], [okay]) := by decide
/-- W11. -/
theorem test_send_tri_1 :
    seen (exec .sendTri1 (start .p2 650#32 0#32)) = some (hl [(1950, 650), (1950, 650)], [okay]) := by decide
/-- W6, W15. -/
theorem test_send_tri_f :
    seen (exec .sendTriF (start .p1 350#32 0#32)) = some (hl [(350, 1050), (1050, 350)], [okay]) ∧
      seen (exec .sendTriF (start .p1 0#32 0#32)) = some (hl [(0, 0), (0, 0)], [okay]) := by decide

/-! ### Builders (95_test_vectors.md §2.2) -/

/-- B2. -/
theorem test_build_type_a :
    seen (exec (.buildTypeA 0b00001 2 false) (start .p1 350#32 0#32)) =
      some ([], [word [z, f, f, f, f, f, z, f, f, f, f, z, e]]) := by decide
/-- B5, B6. -/
theorem test_build_type_a_out_of_range :
    seen (exec (.buildTypeA 0b11111 0 true) (start .p1 350#32 0#32)) = some ([], [word [e]]) ∧
      withCodeword (buildTypeA .reject 0b11111 6 true) (start .p1 350#32 0#32) (fun _ => .fault .commandLost) =
        .next ((start .p1 350#32 0#32).fail .invalidArgument) := ⟨by decide, rfl⟩
/-- B9. -/
theorem test_build_type_b :
    seen (exec (.buildTypeB 4 1 true) (start .p1 350#32 0#32)) =
      some ([], [word [f, f, f, z, z, f, f, f, f, f, f, f, e]]) := by decide
/-- B12, and B13 on a disposed block. -/
theorem test_build_type_b_out_of_range :
    seen (exec (.buildTypeB 1 5 false) (start .p1 350#32 0#32)) = some ([], [word [e]]) ∧
      seen (exec (.buildTypeB 2 2 false) disposed) =
        some ([.release], [word [f, z, f, f, f, z, f, f, f, f, f, z, e]]) := by decide

/-! ### The sequencer (95_test_vectors.md §2.4) -/

/-- S2. -/
theorem test_send_tri_state_stops_at_term :
    seen (exec (.sendTriState [z, e, u]) (start .p1 350#32 1#32)) =
      some (hl [(350, 1050), (350, 1050), (350, 10850)], [okay]) := by decide
/-- S4, S6. -/
theorem test_send_tri_state_repeats :
    seen (exec (.sendTriState []) (start .p1 350#32 3#32)) =
        some (hl [(350, 10850), (350, 10850), (350, 10850)], [okay]) ∧
      seen (exec (.sendTriState [z, e]) (start .p1 (-1#32) 0#32)) = some ([], [okay]) := by decide
/-- S9. -/
theorem test_send_bin :
    seen (exec (.sendBin [f, z, u]) (start .p2 650#32 1#32)) =
      some (hl [(650, 1300), (1300, 650), (650, 6500)], [okay]) := by decide
/-- S10, and S11 under the other policy. -/
theorem test_send_bin_passes_over_the_filler :
    seen (exec (.sendBin [e, e, e, e, e, u, z, u, e]) (start .p1 350#32 1#32)) =
        some (hl [(1050, 350), (350, 1050), (1050, 350), (350, 10850)], [okay]) ∧
      binPass .stopAtTerm .p1 [e, e, e, e, e, u, z, u, e] = [[⟨1, 31⟩]] := by decide

/-! ### Switches (95_test_vectors.md §2.5) -/

/-- Program P1 (X1): the trace of `'000000FFFF0F'`, then the sync. -/
theorem test_switch_on_a :
    seen (exec (.switchOnA 0b11111 5 1) (start .p1 350#32 1#32)) =
      some (hl [(350, 1050), (350, 1050), (350, 1050), (350, 1050), (350, 1050), (350, 1050),
        (350, 1050), (350, 1050), (350, 1050), (350, 1050), (350, 1050), (350, 1050),
        (350, 1050), (1050, 350), (350, 1050), (1050, 350), (350, 1050), (1050, 350),
        (350, 1050), (1050, 350), (350, 1050), (350, 1050), (350, 1050), (1050, 350),
        (350, 10850)], [okay]) := by decide +kernel
/-- X5, X10. -/
theorem test_switch_on_a_corners :
    seen (exec (.switchOnA 0b11111 5 6) (start .p1 350#32 2#32)) =
        some (hl [(350, 10850), (350, 10850)], [okay]) ∧
      seen (exec (.switchOnA 0b11111 5 0) (start .p1 (-1#32) 1#32)) = some ([], [okay]) := by decide
/-- X4. -/
theorem test_switch_off_a_length_before_none :
    seen (exec (.switchOffA 0b11111 6 0) (start .p1 350#32 1#32)) = some ([], [error .invalidAddress]) := by decide
/-- R124's example, `'0FFFF' 'F0FFF' 'F0'`, seen through its number of line writes and its last symbol. -/
theorem test_switch_off_a :
    (seen (exec (.switchOffA 0b00001 5 2) (start .p1 350#32 1#32))).map
        (fun r => (r.1.take 8, r.1.drop 88, lineWrites r.1)) =
      some (hl [(350, 1050), (350, 1050)], hl [(350, 1050), (350, 1050), (350, 10850)], 50) := by decide +kernel
/-- X8, and R136's lifecycle check first (X11's class). -/
theorem test_switch_on_b_corners :
    seen (exec (.switchOnB 5 1) (start .p1 350#32 1#32)) = some (hl [(350, 10850)], [okay]) ∧
      seen (exec (.switchOnB 5 1) disposed) = some ([.release], [refusal .lineDisposed]) := by decide
/-- X9: the last symbols of `'0FFFFF0FFFFF'`. -/
theorem test_switch_on_b :
    (seen (exec (.switchOnB 1 3) (start .p1 350#32 1#32))).map (fun r => (r.1.take 8, r.1.drop 88)) =
      some (hl [(350, 1050), (350, 1050)], hl [(350, 1050), (1050, 350), (350, 10850)]) := by decide +kernel
/-- Program P2: the last symbol of `'F0FFF0FFFFF0'` under P2, and 100 line writes in two passes. -/
theorem test_switch_off_b :
    (seen (exec (.switchOffB 2 2) (start .p2 650#32 2#32))).map
        (fun r => (r.1.drop 188, lineWrites r.1, nominal r.1)) =
      some (hl [(650, 1950), (650, 1950), (650, 6500)], 100, 139100) := by decide +kernel

/-! ### The Binary Converter (95_test_vectors.md §2.6) -/

/-- BN1, BN3. -/
theorem test_dec_to_bin :
    seen (exec (.decToBin 5#32 8) (start .p1 350#32 0#32)) =
        some ([], [word [e, e, e, e, e, u, z, u, e]]) ∧
      seen (exec (.decToBin 0#32 4) (start .p1 350#32 0#32)) = some ([], [word [e, e, e, z, e]]) := by decide
/-- BN5, BN7. -/
theorem test_dec_to_bin_bounds :
    seen (exec (.decToBin 256#32 8) (start .p1 350#32 0#32)) =
        some ([], [refusal .valueWiderThanBitLength]) ∧
      seen (exec (.decToBin 0xFFFFFFFF#32 32) (start .p1 350#32 0#32)) =
        some ([], [word (List.replicate 32 u ++ [e])]) := by decide +kernel

/-! ### Construction, the step and the response -/

/-- R181: an input-mode line. -/
theorem test_construct_fails : (construct ⟨true, false⟩ (start .p1 350#32 1#32)).2.life = .unconfigured := by decide
/-- R155, R57: a response on the port. -/
theorem test_response : (word [z, u, f, e]).encode = ⟨0b000, 0#32, [0b00, 0b01, 0b10, 0b11]⟩ ∧
    (refusal .lineDisposed).encode = ⟨0b111, 0#32, []⟩ := by decide
/-- C1d through the port: the packet is answered and the next one stays. -/
theorem test_step_refuses_a_packet :
    seen (step { start .p1 350#32 0#32 with pending := [⟨0x00, 0, 0, []⟩, ⟨0x0F, 0, 0, []⟩] }) =
      some ([], [refusal .unassignedOpcode]) := by decide
/-- 10_state.md R34, R29: one move of a command in flight emits the effect at its position and takes no packet. -/
theorem test_step_moves_a_flight :
    seen (step ({ start .p1 350#32 1#32 with pending := [⟨0x0F, 0, 0, []⟩] }.fly
      ⟨.triState [f], .p1, 350#32, 1, 0, 0, 3⟩)) = some ([.delay 1050], []) := by decide

/-! ### Assembly (30_encoding.md R67, R68; the listings of 95_test_vectors.md §3) -/

theorem test_assemble_switch_on_a :
    assemble "SWITCH_ON_A \"11111\", 1    ; 30 0000051F 00000001".toList =
      some (.real (.switchOnA 0b11111 5 1)) := by decide +kernel
theorem test_assemble_none :
    assemble "SWITCH_ON_A \"111111\", None".toList = some (.real (.switchOnA 0b11111 6 0)) := by decide +kernel
theorem test_assemble_send_bin :
    assemble "SEND_BIN '101.'".toList = some (.real (.sendBin [u, z, u, e])) := by decide +kernel
theorem test_assemble_set_repeat_count :
    assemble "SET_REPEAT_COUNT -1".toList = some (.real (.setRepeatCount 0xFFFFFFFF#32)) := by decide +kernel
theorem test_assemble_build_type_b :
    assemble "BUILD_TYPE_B 1, 1, on".toList = some (.real (.buildTypeB 1 1 true)) := by decide +kernel
theorem test_assemble_pseudo :
    assemble "SEND_DEC 5, 8".toList = some (.pseudo (.sendDec 5#32 8)) := by decide +kernel
/-- R67: the string of BUILD_TYPE_A has exactly 5 characters. -/
theorem test_assemble_rejects : assemble "BUILD_TYPE_A \"111\", 1, on".toList = none := by decide +kernel

/-! ### Witnesses: for each statement with hypotheses, states and operands that meet them

`nominalP1` is in range for every waveform; `atDelayMax p` for the boundary of the delay range. -/

/-- P1 at its default unit, three repeats. -/
def nominalP1 : State := start .p1 350#32 3#32

/-- P2 at its default unit, one repeat. -/
def nominalP2 : State := start .p2 650#32 1#32

/-- A pulse length that no delay of 1 unit or more can use. -/
def negative : State := start .p1 (-1#32) 1#32

/-- A command in flight, in its second pass, with a packet waiting at the port. -/
def flying : State :=
  { start .p1 350#32 3#32 with
    busy := true
    flight := some ⟨.triState [f, e], .p1, 350#32, 3, 1, 0, 3⟩
    pending := [⟨0x0F, 0, 0, []⟩]
    out := .low
    trace := [.write .high, .delay 350, .write .low] }

/-- A port with a DISPOSE packet, then a packet that does not decode. -/
def waiting : State := { nominalP1 with pending := [⟨0x0F, 0, 0, []⟩, ⟨0x00, 0, 0, []⟩] }

/-- A port with a packet that does not decode. -/
def garbled : State := { nominalP1 with pending := [⟨0x01, 2, 0, []⟩] }

theorem test_nominalP1_in_range : nominalP1.life = .active ∧ nominalP1.repeatCount.toInt = (3 : Nat) ∧
    nominalP1.pulse.toInt = (350 : Nat) ∧ ¬ nominalP1.delayBad 1 ∧ ¬ nominalP1.delayBad (syncLow nominalP1.protocol) := by
  unfold State.delayBad; decide

theorem test_negative_out_of_range : negative.life = .active ∧ negative.repeatCount.toInt = (1 : Nat) ∧
    negative.delayBad 1 ∧ negative.delayBad (syncLow negative.protocol) := by
  unfold State.delayBad; decide

/-- The boundary of R83, at both ends: 0 and `2^32 - 1` are in range, their neighbours are not. -/
theorem test_delay_boundary : ¬ (start .p1 0#32 0#32).delayBad 31 ∧
    ¬ (start .p1 1#32 0#32).delayBad (2 ^ 32 - 1) ∧ (start .p1 1#32 0#32).delayBad (2 ^ 32) ∧
    (start .p1 (-1#32) 0#32).delayBad 1 ∧ ¬ (start .p1 (-1#32) 0#32).delayBad 0 ∧
    ¬ (start .p1 0x7FFFFFFF#32 0#32).delayBad 2 ∧ (start .p1 0x7FFFFFFF#32 0#32).delayBad 3 := by
  unfold State.delayBad; decide

theorem test_witness_ConstructionInitialisesTheBlock :
    ((⟨false, true⟩ : LineFacts).present = false) ∧ ((⟨true, false⟩ : LineFacts).outputMode = false) := by decide

theorem test_witness_FailedConstructionRefusesEveryCommand :
    ((⟨true, false⟩ : LineFacts).outputMode = false) ∧ unconfigured.life = .unconfigured := by decide

theorem test_witness_DisposedBlockRefusesOnlyLineCommands :
    (Instr.switchOnA 0b11111 6 0).drivesLine = true ∧ disposed.life = .disposed ∧
      (Instr.decToBin 5#32 8).drivesLine = false ∧ Instr.decToBin 5#32 8 ≠ .dispose := by decide

theorem test_witness_LifecycleNeverGoesBack :
    (∃ t, step waiting = .next t ∧ waiting.life = .active ∧ t.life = .disposed) ∧
      (∃ t, step disposed = .next t ∧ disposed.life = .disposed) ∧
      (∃ t, step unconfigured = .next t ∧ unconfigured.life = .unconfigured) :=
  ⟨⟨_, rfl, rfl, rfl⟩, ⟨_, rfl, rfl⟩, ⟨_, rfl, rfl⟩⟩

theorem test_witness_DecodeOfEncodeIsTheInstruction :
    (Instr.switchOnA 0b11111 5 7).wellFormed = true ∧ (Instr.switchOnA 0 0 0).wellFormed = true ∧
      (Instr.sendBin [u, f, e]).wellFormed = true := by decide

theorem test_witness_EncodeOfDecodeIsThePacket :
    read 0x30 0x0000051F 0x7 [] = some (.switchOnA 0b11111 5 7) := by decide

/-- One packet for each clause; 5 and 6 are the boundary of `GALEN`, 256 and 257 that of `CW_MAX`. -/
theorem test_witness_DecoderRefusesByNameInOrder :
    rejected 0x36 0 0 [] = some .unassignedOpcode ∧ rejected 0x20 0x20 0 [] = some .reservedBitSet ∧
      rejected 0x33 0x7 0x7 [0b11] = some .unexpectedCodeword ∧
      rejected 0x35 0 0 (List.replicate 257 0b01) = some .codewordTooLong ∧
      (read 0x35 0 0 (List.replicate 256 0b01)).isSome = true ∧
      rejected 0x31 0x00000410 0 [] = some .groupAddressBitBeyondLength ∧
      (read 0x31 0x00000510 0 []).isSome = true ∧ (read 0x31 0x00000610 0 []).isSome = true := by decide +kernel

theorem test_witness_StepRunsTheDecodedInstruction :
    waiting.busy = false ∧ waiting.pending = [⟨0x0F, 0, 0, []⟩, ⟨0x00, 0, 0, []⟩] ∧ read 0x0F 0 0 [] = some .dispose := by
  decide

theorem test_witness_StepAnswersAnUndecodablePacketRefused :
    garbled.busy = false ∧ garbled.pending = [⟨0x01, 2, 0, []⟩] ∧ rejected 0x01 2 0 [] = some .reservedBitSet := by decide

theorem test_witness_PlacedTableWordRunsNext :
    decodeTableWord 8 0x11 = some .sendSync ∧ decodeTableWord 72 0x000000010000051F30 = some (.switchOnA 0b11111 5 1) := by
  decide

theorem test_witness_IdlePortWaits : nominalP1.busy = false ∧ nominalP1.pending = [] := by decide

theorem test_witness_BusyPortAcceptsNothing : flying.busy = true ∧ ∃ t, step flying = .next t ∧ t.trace ≠ flying.trace :=
  ⟨rfl, _, rfl, by decide⟩

theorem test_witness_EveryCommandEndsWithOneStatus :
    seen (exec (.switchOffA 0 255 0) nominalP1) = some ([], [error .invalidAddress]) ∧
      seen (exec (.setRepeatCount (-1#32)) nominalP1) = some ([], [error .invalidArgument]) := by decide

theorem test_witness_ErrorsArePrecise :
    ∃ t, exec (.setRepeatCount (-1#32)) nominalP1 = .next t ∧ t.answers = nominalP1.answers ++ [error .invalidArgument] ∧
      (error .invalidArgument).status ≠ .ok :=
  ⟨_, rfl, rfl, by decide⟩

/-- An answer no command gives, put there by hand: the hypothesis is met, the answer is an old one. -/
theorem test_witness_OnlyConstructionIsAnInvalidConfiguration :
    ∃ t, step { nominalP1 with answers := [error .invalidConfiguration] } = .next t ∧
      error .invalidConfiguration ∈ t.answers ∧ (error .invalidConfiguration).status = .invalidConfiguration :=
  ⟨_, rfl, by decide, rfl⟩

theorem test_witness_ResponsesCarryOnlyTheirResults :
    seen (exec (.decToBin 1#32 1) nominalP1) = some ([], [word [u, e]]) ∧
      seen (exec .getPulseLength nominalP1) = some ([], [value 350#32]) ∧
      seen (exec (.decToBin 2#32 1) nominalP1) = some ([], [refusal .valueWiderThanBitLength]) := by decide

theorem test_flying_keeps_the_invariant : Inv flying where
  repeat_nonneg := by decide
  busy_iff_flight := by decide
  flight_admitted := by
    rintro g hg
    cases hg
    exact ⟨rfl, rfl, rfl, by decide, by decide, by decide⟩
  delays_in_range := by
    intro n hn
    simp only [flying, List.mem_cons, Effect.delay.injEq, reduceCtorEq, false_or, List.not_mem_nil, or_false] at hn
    subst hn; decide
  owned_not_released := by decide
  released_last := fun h => absurd h (by decide)
  out_last_written := by
    intro _ level ds tr h hds
    rcases ds with _ | ⟨d, ds⟩
    · have := congrArg List.getLast? h
      simp [flying] at this
      exact this
    · exfalso
      have hlast := congrArg List.getLast? h
      rw [List.getLast?_append, List.getLast?_cons_cons] at hlast
      have : (.write .low : Effect) ∈ d :: ds := by
        apply List.mem_of_getLast?
        simpa [flying, List.getLast?_cons] using hlast.symm
      exact hds _ this
  answers_clean := by decide

theorem test_witness_EveryStepKeepsTheInvariant : Inv flying ∧ ∃ t, step flying = .next t ∧ t ≠ flying :=
  ⟨test_flying_keeps_the_invariant, _, rfl, by decide⟩

theorem test_witness_NoStepStopsUnderTheInvariant : Inv flying := test_flying_keeps_the_invariant

theorem test_witness_SetProtocolRebaselinesANonPositivePulse :
    unconfigured.life = .unconfigured ∧ (start .p1 0#32 0#32).life ≠ .unconfigured ∧ disposed.life ≠ .unconfigured := by
  decide

theorem test_witness_SetPulseLengthStoresAnyValue : unconfigured.life = .unconfigured ∧ nominalP1.life ≠ .unconfigured := by
  decide

/-- 0 and -1 are the boundary of R119; `2^31 - 1` and `-2^31` its ends. -/
theorem test_witness_SetRepeatCountRejectsNegativeValues :
    unconfigured.life = .unconfigured ∧ nominalP1.life ≠ .unconfigured ∧ 0 ≤ (0#32).toInt ∧ (-1#32).toInt < 0 ∧
      0 ≤ (0x7FFFFFFF#32).toInt ∧ (0x80000000#32).toInt < 0 := by decide

theorem test_witness_AccessorsReturnTheRegisters : unconfigured.life = .unconfigured ∧ disposed.life ≠ .unconfigured := by
  decide

theorem test_witness_RegistersAreWrittenOnlyByTheirCommands :
    (∃ t, exec (.setProtocol .p2) (start .p1 0#32 0#32) = .next t ∧ t.protocol ≠ .p1 ∧ t.pulse ≠ 0#32) ∧
      (∃ t, exec (.setRepeatCount 7#32) nominalP1 = .next t ∧ t.repeatCount ≠ nominalP1.repeatCount) ∧
      (∃ t, exec .dispose nominalP1 = .next t ∧ t.life ≠ nominalP1.life) ∧
      (Instr.getProtocol.drivesLine = false ∧ Instr.getProtocol ≠ .dispose) :=
  ⟨⟨_, rfl, by decide, by decide⟩, ⟨_, rfl, by decide⟩, ⟨_, rfl, by decide⟩, by decide⟩

theorem test_witness_ProtocolDefaultNeedsANonPositivePulseFirst :
    nominalP1.life ≠ .unconfigured ∧ 0 < nominalP1.pulse.toInt ∧ (0#32).toInt ≤ 0 ∧ (0x80000000#32).toInt ≤ 0 := by decide

theorem test_witness_DisposeReleasesTheLineOnce :
    unconfigured.life = .unconfigured ∧ nominalP1.life = .active ∧ disposed.life = .disposed := by decide

theorem test_witness_TransmitEmitsOneTransmit :
    unconfigured.life = .unconfigured ∧ disposed.life = .disposed ∧ (start .p1 0x7FFFFFFF#32 0#32).life = .active ∧
      ¬ (start .p1 0x7FFFFFFF#32 0#32).delayBad (2#32).toNat ∧ ¬ (start .p1 0x7FFFFFFF#32 0#32).delayBad (0#32).toNat ∧
      (start .p1 0x7FFFFFFF#32 0#32).delayBad (3#32).toNat := by
  unfold State.delayBad; decide

/-- The longest pulse length P1's sync can use, and the next one. -/
theorem test_witness_SendSyncEmitsTheSync :
    (start .p1 138547332#32 0#32).life = .active ∧ (start .p1 138547332#32 0#32).pulse.toInt = (138547332 : Nat) ∧
      ¬ (start .p1 138547332#32 0#32).delayBad (syncLow .p1) ∧ (start .p1 138547333#32 0#32).delayBad (syncLow .p1) ∧
      negative.delayBad 1 := by
  unfold State.delayBad; decide

theorem test_witness_SendBitsEmitTheProtocolRatios :
    nominalP2.life = .active ∧ nominalP2.pulse.toInt = (650 : Nat) ∧ ¬ nominalP2.delayBad (bitLong nominalP2.protocol) ∧
      negative.delayBad 1 ∧ (start .p1 1431655766#32 0#32).delayBad (bitLong .p1) := by
  unfold State.delayBad; decide

theorem test_witness_SendTriEmitsTheSameRatiosUnderBothProtocols :
    nominalP2.life = .active ∧ nominalP2.pulse.toInt = (650 : Nat) ∧ ¬ nominalP2.delayBad 3 ∧
      ¬ (start .p2 1431655765#32 0#32).delayBad 3 ∧ (start .p2 1431655766#32 0#32).delayBad 3 ∧ negative.delayBad 1 := by
  unfold State.delayBad; decide

theorem test_witness_WaveformTraceIsAFunctionOfProtocolAndPulse :
    isWaveform .sendTriF = true ∧ nominalP1.life = (start .p1 350#32 7#32).life ∧
      nominalP1.protocol = (start .p1 350#32 7#32).protocol ∧ nominalP1.pulse = (start .p1 350#32 7#32).pulse ∧
      nominalP1 ≠ start .p1 350#32 7#32 := by decide

theorem test_witness_CommandsDependOnTheConfigurationAlone :
    nominalP1.life = waiting.life ∧ nominalP1.protocol = waiting.protocol ∧ nominalP1.pulse = waiting.pulse ∧
      nominalP1.repeatCount = waiting.repeatCount ∧ nominalP1 ≠ waiting := by decide

theorem test_witness_EveryWaveformEndsLow :
    Instr.sendSync.drivesLine = true ∧ ∃ t, exec .sendSync nominalP1 = .next t ∧ t.trace ≠ nominalP1.trace :=
  ⟨rfl, _, rfl, by decide⟩

theorem test_witness_WaveformLengths :
    ((waveTri .floating, 8, 4) : List Transmit × Nat × Nat) ∈
      [(waveSync .p2, 11, 2), (waveBit0 .p2, 3, 2), (waveTri .floating, 8, 4)] := by decide

/-- The ends of the range, and the values on either side of it. -/
theorem test_witness_BuildTypeAReturnsTheCodeword :
    nominalP1.life ≠ .unconfigured ∧ 1 ≤ (1#3).toNat ∧ (5#3).toNat ≤ 5 ∧ (0#3).toNat = 0 ∧ 5 < (6#3).toNat := by decide

theorem test_witness_BuildTypeBReturnsTheCodeword :
    nominalP1.life ≠ .unconfigured ∧ 1 ≤ (1#3).toNat ∧ (4#3).toNat ≤ 4 ∧ (0#3).toNat = 0 ∧ 4 < (5#3).toNat := by decide

theorem test_witness_BuiltCodewordsAreTwelveSymbolsAndATerminator :
    (∃ cw, 1 ≤ (5#3).toNat ∧ (5#3).toNat ≤ 5 ∧ buildTypeA .reject 0b10101 5 false = .ok cw) ∧
      ∃ cw, 1 ≤ (4#3).toNat ∧ (4#3).toNat ≤ 4 ∧ buildTypeB .preserve 4 4 true = .ok cw :=
  ⟨⟨_, by decide, by decide, rfl⟩, ⟨_, by decide, by decide, rfl⟩⟩

/-- The ends of both ranges. -/
theorem test_witness_StatusTouchesOnlyItsOwnSymbols :
    1 ≤ (1#3).toNat ∧ (1#3).toNat ≤ 4 ∧ 1 ≤ (5#3).toNat ∧ (5#3).toNat ≤ 5 ∧ 1 ≤ (4#3).toNat ∧ (4#3).toNat ≤ 4 := by decide

theorem test_witness_SendTriStateEmitsItsPasses :
    ([u, f, e] : Codeword).length ≤ 256 ∧ (start .p1 (-1#32) 0#32).repeatCount.toInt = (0 : Nat) ∧
      nominalP2.life = .active ∧ nominalP2.repeatCount.toInt = (1 : Nat) ∧ nominalP2.pulse.toInt = (650 : Nat) ∧
      ¬ nominalP2.delayBad (syncLow nominalP2.protocol) ∧ negative.repeatCount.toInt = (1 : Nat) ∧ negative.delayBad 1 := by
  unfold State.delayBad; decide

theorem test_witness_SendBinEmitsItsPasses :
    ([u, f, e] : Codeword).length ≤ 256 ∧ (start .p2 (-1#32) 0#32).repeatCount.toInt = (0 : Nat) ∧
      nominalP1.life = .active ∧ nominalP1.repeatCount.toInt = (3 : Nat) ∧ nominalP1.pulse.toInt = (350 : Nat) ∧
      ¬ nominalP1.delayBad (syncLow nominalP1.protocol) ∧ negative.repeatCount.toInt = (1 : Nat) ∧ negative.delayBad 1 := by
  unfold State.delayBad; decide

/-- `GALEN` 5 and 6, and `DEV` 0, 1, 5 and 6, are the boundaries of the clauses. -/
theorem test_witness_SwitchAChecksThenTransmits :
    nominalP1.life = .active ∧ nominalP1.repeatCount.toInt = (3 : Nat) ∧ nominalP1.pulse.toInt = (350 : Nat) ∧
      ¬ nominalP1.delayBad (syncLow nominalP1.protocol) ∧ 5 < (6#8).toNat ∧ (5#8).toNat ≤ 5 ∧ (0#3).toNat = 0 ∧
      1 ≤ (1#3).toNat ∧ (5#3).toNat ≤ 5 ∧ 5 < (6#3).toNat ∧ (∀ j < 5, (3#8).toNat ≤ j → (7#5).getLsbD j = false) ∧
      negative.life = .active ∧ negative.repeatCount.toInt = (1 : Nat) ∧ negative.delayBad 1 := by
  unfold State.delayBad; decide

theorem test_witness_SwitchBTransmits :
    nominalP2.life = .active ∧ nominalP2.repeatCount.toInt = (1 : Nat) ∧ nominalP2.pulse.toInt = (650 : Nat) ∧
      ¬ nominalP2.delayBad (syncLow nominalP2.protocol) ∧ 1 ≤ (1#3).toNat ∧ (4#3).toNat ≤ 4 ∧ 4 < (5#3).toNat ∧
      negative.life = .active ∧ negative.repeatCount.toInt = (1 : Nat) ∧ negative.delayBad 1 := by
  unfold State.delayBad; decide

theorem test_witness_EveryPassEndsInOneSync :
    (5#8).toNat ≤ 5 ∧ (7#3).toNat ≠ 0 ∧ nominalP1.life = .active ∧ nominalP1.repeatCount.toInt = (3 : Nat) ∧
      nominalP1.pulse.toInt = (350 : Nat) ∧ ¬ nominalP1.delayBad (syncLow nominalP1.protocol) ∧ 0 < 350 ∧
      (start .p1 (-1#32) 0#32).life = .active ∧ (start .p1 (-1#32) 0#32).repeatCount.toInt = (0 : Nat) := by
  unfold State.delayBad; decide

theorem test_witness_TraceSizes :
    nominalP1.life = .active ∧ nominalP1.repeatCount.toInt = (3 : Nat) ∧ ¬ nominalP1.delayBad 1 ∧
      ¬ nominalP1.delayBad (syncLow nominalP1.protocol) ∧ (5#8).toNat ≤ 5 ∧ 1 ≤ (1#3).toNat ∧ (5#3).toNat ≤ 5 ∧
      (4#3).toNat ≤ 4 := by
  unfold State.delayBad; decide

theorem test_witness_OutOfRangeSwitchesEmitSyncsOnly :
    (5#8).toNat ≤ 5 ∧ 5 < (6#3).toNat ∧ 4 < (5#3).toNat ∧ nominalP2.life = .active ∧
      nominalP2.repeatCount.toInt = (1 : Nat) ∧ nominalP2.pulse.toInt = (650 : Nat) ∧
      ¬ nominalP2.delayBad (syncLow nominalP2.protocol) := by
  unfold State.delayBad; decide

theorem test_witness_NominalDurations :
    nominalP2.pulse.toInt = (650 : Nat) ∧ nominalP2.life = .active ∧ nominalP2.repeatCount.toInt = (1 : Nat) ∧
      ¬ nominalP2.delayBad (syncLow nominalP2.protocol) := by
  unfold State.delayBad; decide

theorem test_witness_SequencerStepsAddUpToTheCommand :
    nominalP1.life = .active ∧ nominalP1.repeatCount.toInt = (3 : Nat) ∧ nominalP1.pulse.toInt = (350 : Nat) ∧
      ¬ nominalP1.delayBad (syncLow nominalP1.protocol) ∧ (start .p1 (-1#32) 0#32).life = .active ∧
      (start .p1 (-1#32) 0#32).repeatCount.toInt = (0 : Nat) := by
  unfold State.delayBad; decide

theorem test_witness_EveryFlightRunsToCompletion :
    flying.busy = true ∧ flying.flight = some ⟨.triState [f, e], .p1, 350#32, 3, 1, 0, 3⟩ := by decide

/-- 32 digits in 32 positions, and in 31. -/
theorem test_witness_DecToBinReturnsFillerDigitsTerminator :
    unconfigured.life = .unconfigured ∧ disposed.life ≠ .unconfigured ∧ (List.replicate 32 u).length ≤ (32#8).toNat ∧
      (31#8).toNat < (List.replicate 32 u).length := by decide

theorem test_witness_SendDecTransmitsTheSignificantDigits :
    ([u, z, u] : Codeword).length ≤ (8#8).toNat ∧ nominalP1.life = .active ∧ nominalP1.repeatCount.toInt = (3 : Nat) ∧
      nominalP1.pulse.toInt = (350 : Nat) ∧ ¬ nominalP1.delayBad (syncLow nominalP1.protocol) := by
  unfold State.delayBad; decide

theorem test_witness_CodePseudoCommandsTransmitLikeTheSwitches : (5#8).toNat ≤ 5 ∧ (6#3).toNat ≠ 0 := by decide

end Sys2Proof.Tests
end

/-! SUPPORT and CERTIFICATE. The state and its invariant (10_state.md): what the invariant says with the port set aside,
how each shared operation keeps it, and the statements about single steps, the registers and the sequencer that are read
off `exec_cases`, `step_cases` and `advance_cases`. -/

namespace Sys2Proof.Machine

/-! ### What may be emitted while the block owns its line -/

/-- An effect a command in flight may emit: no release, and no delay above `DELAY_MAX` (41_waveform.md R83;
43_transmitter.md R135). -/
def Effect.Driven (e : Effect) : Prop :=
  e ≠ .release ∧ ∀ n, e = .delay n → n ≤ Config.delayMax

theorem driven_write (level : Level) : (Effect.write level).Driven := ⟨by simp, by simp⟩

theorem driven_delay {n : Nat} (h : n ≤ Config.delayMax) : (Effect.delay n).Driven :=
  ⟨by simp, fun _ hm => Effect.delay.inj hm ▸ h⟩

theorem delayInRange_toNat_le {x : Int} (h : delayInRange x = true) : x.toNat ≤ Config.delayMax := by
  have hx : 0 ≤ x ∧ x ≤ Config.delayMax := of_decide_eq_true h
  omega

/-- A waveform the delay check admits emits only effects that may be emitted. -/
theorem driven_of_mem_waveEffects {pulse : Word} {w : List Transmit} {e : Effect}
    (hw : ∀ t ∈ w, t.inRange pulse = true) (he : e ∈ waveEffects pulse w) : e.Driven := by
  obtain ⟨t, ht, he⟩ := List.mem_flatMap.mp he
  obtain ⟨hhigh, hlow⟩ := (Bool.and_eq_true _ _).mp (hw t ht)
  simp only [Transmit.effects, List.mem_cons, List.not_mem_nil, or_false] at he
  rcases he with rfl | rfl | rfl | rfl
  · exact driven_write _
  · exact driven_delay (delayInRange_toNat_le hhigh)
  · exact driven_write _
  · exact driven_delay (delayInRange_toNat_le hlow)

theorem driven_of_mem_plan {s : State} {j : Job} {n : Nat} (h : s.delaysInRange j n = true) :
    ∀ e ∈ waveEffects s.pulse (j.plan s.protocol n), e.Driven :=
  fun _ he => driven_of_mem_waveEffects (List.all_eq_true.mp h) he

/-! ### The invariant with the port set aside -/

/-- The part of `Inv` about the output line, field by field. It reads the lifecycle, the level of OUT and the trace
only, so an update of any other register keeps it as it stands. -/
structure LineKept (life : Life) (out : Level) (trace : List Effect) : Prop where
  delays_in_range : ∀ n, Effect.delay n ∈ trace → n ≤ Config.delayMax
  owned_not_released : life ≠ .disposed → Effect.release ∉ trace
  released_last : life = .disposed → ∃ tr, trace = tr ++ [.release] ∧ Effect.release ∉ tr
  out_last_written : life ≠ .disposed → ∀ level ds tr, trace = tr ++ .write level :: ds →
    (∀ l, Effect.write l ∉ ds) → out = level

/-- An answer that is not `INVALID_CONFIGURATION`, and carries no result unless it is `OK` (30_encoding.md R69;
60_exceptions.md R156). -/
def Answer.Clean (a : Answer) : Prop :=
  a.status ≠ .invalidConfiguration ∧ (a.status ≠ .ok → a.result = 0#32 ∧ a.rcw = [])

/-- The part of `Inv` that does not read `busy` and `flight`: what stays true inside a command. -/
structure Kept (s : State) : Prop where
  repeat_nonneg : 0 ≤ asI32 s.repeatCount
  line : LineKept s.life s.out s.trace
  answers : ∀ a ∈ s.answers, a.Clean

/-- What `Inv` says of a command in flight. -/
def Flight.Admitted (s : State) (f : Flight) : Prop :=
  s.life = .active ∧ f.protocol = s.protocol ∧ f.pulse = s.pulse ∧ f.passes = f.job.passesIn s ∧ f.k ≤ f.passes ∧
    s.delaysInRange f.job f.passes = true

theorem Inv.kept {s : State} (h : Inv s) : Kept s where
  repeat_nonneg := h.repeat_nonneg
  line := ⟨h.delays_in_range, h.owned_not_released, h.released_last, h.out_last_written⟩
  answers := h.answers_clean

theorem Inv.admitted {s : State} {f : Flight} (h : Inv s) (hf : s.flight = some f) : f.Admitted s :=
  h.flight_admitted f hf

/-- The invariant is its part with the port set aside, with an admitted command in flight exactly while busy. -/
theorem Kept.inv {s : State} (h : Kept s) (hb : s.busy = s.flight.isSome)
    (hf : ∀ f ∈ s.flight, f.Admitted s) : Inv s where
  repeat_nonneg := h.repeat_nonneg
  busy_iff_flight := hb
  flight_admitted := hf
  delays_in_range := h.line.delays_in_range
  owned_not_released := h.line.owned_not_released
  released_last := h.line.released_last
  out_last_written := h.line.out_last_written
  answers_clean := h.answers

/-! ### How the shared operations keep the invariant -/

theorem lineKept_nil {life : Life} (out : Level) (h : life ≠ .disposed) : LineKept life out [] where
  delays_in_range := by simp
  owned_not_released := by simp
  released_last := fun hd => absurd hd h
  out_last_written := by simp

theorem LineKept.snoc {life : Life} {out : Level} {trace : List Effect} {e : Effect} (h : LineKept life out trace)
    (hl : life ≠ .disposed) (he : e.Driven) : LineKept life (e.levelAfter out) (trace ++ [e]) where
  delays_in_range := by
    intro n hn
    rcases List.mem_append.mp hn with hn | hn
    · exact h.delays_in_range n hn
    · exact he.2 n (List.mem_singleton.mp hn).symm
  owned_not_released := by
    intro _ hr
    rcases List.mem_append.mp hr with hr | hr
    · exact h.owned_not_released hl hr
    · exact he.1 (List.mem_singleton.mp hr).symm
  released_last := fun hd => absurd hd hl
  out_last_written := by
    intro _ level ds tr htr hds
    rcases List.eq_nil_or_concat ds with rfl | ⟨ds, d, rfl⟩
    · -- the last write is `e` itself
      obtain ⟨-, rfl⟩ := List.concat_inj.mp (by simpa using htr)
      rfl
    · -- the last write is an older one, and `e` is no write
      have hsplit : trace ++ [e] = (tr ++ .write level :: ds) ++ [d] := by simpa [List.concat_eq_append] using htr
      obtain ⟨htrace, hde⟩ := List.append_inj' hsplit rfl
      obtain rfl : e = d := List.singleton_inj.mp hde
      have hout := h.out_last_written hl level ds tr htrace fun l hm => hds l (by simp [hm])
      cases e with
      | write l => exact absurd (by simp) (hds l)
      | delay _ => exact hout
      | release => exact hout

theorem LineKept.release {life : Life} {out : Level} {trace : List Effect} (level : Level) (h : LineKept life out trace)
    (hl : life ≠ .disposed) : LineKept .disposed level (trace ++ [.release]) where
  delays_in_range := fun n hn => h.delays_in_range n (by simpa using hn)
  owned_not_released := fun hd => absurd rfl hd
  released_last := fun _ => ⟨trace, rfl, h.owned_not_released hl⟩
  out_last_written := fun hd => absurd rfl hd

theorem Kept.emit {s : State} {e : Effect} (h : Kept s) (hl : s.life ≠ .disposed) (he : e.Driven) :
    Kept (s.emit e) where
  repeat_nonneg := h.repeat_nonneg
  line := h.line.snoc hl he
  answers := h.answers

theorem Kept.emitAll {s : State} {es : List Effect} (h : Kept s) (hl : s.life ≠ .disposed) (he : ∀ e ∈ es, e.Driven) :
    Kept (s.emitAll es) := by
  induction es generalizing s with
  | nil => simpa using h
  | cons e es ih =>
    rw [← State.emit_emitAll]
    exact ih (h.emit hl (he e (by simp))) hl fun d hd => he d (by simp [hd])

theorem Kept.releaseLine {s : State} (h : Kept s) (hl : s.life ≠ .disposed) : Kept s.releaseLine where
  repeat_nonneg := h.repeat_nonneg
  line := h.line.release _ hl
  answers := h.answers

theorem Kept.accept {s : State} (h : Kept s) (rest : List Packet) : Kept (s.accept rest) :=
  ⟨h.repeat_nonneg, h.line, h.answers⟩

theorem Kept.assignProtocol {s : State} (h : Kept s) (policy : RebaselinePolicy) (p : Protocol) :
    Kept (s.assignProtocol policy p) where
  repeat_nonneg := by simpa using h.repeat_nonneg
  line := by simpa using h.line
  answers := by simpa using h.answers

/-- The end of a command restores the whole invariant: the port is idle and nothing is in flight. -/
theorem Kept.inv_answer {s : State} {a : Answer} (h : Kept s) (ha : a.Clean) : Inv (s.answer a) := by
  have hkept : Kept (s.answer a) := by
    refine ⟨h.repeat_nonneg, h.line, fun b hb => ?_⟩
    rcases List.mem_append.mp hb with hb | hb
    · exact h.answers b hb
    · rwa [List.mem_singleton.mp hb]
  exact hkept.inv rfl (by simp)

theorem clean_of_ok {a : Answer} (h : a.status = .ok) : a.Clean := ⟨by simp [h], fun hn => absurd h hn⟩

theorem Kept.inv_answerOk {s : State} (h : Kept s) : Inv s.answerOk := h.inv_answer (clean_of_ok rfl)

theorem Kept.inv_fail {s : State} {status : Status} (h : Kept s) (hs : status ≠ .invalidConfiguration) :
    Inv (s.fail status) :=
  h.inv_answer ⟨hs, fun _ => ⟨rfl, rfl⟩⟩

/-- A command goes on with its flight `f` moved to another place of the sequencer. -/
theorem Kept.inv_fly {s : State} {f : Flight} (h : Kept s) (hf : f.Admitted s) {k : Nat} (i pos : Nat)
    (hk : k ≤ f.passes) : Inv (s.fly { f with k := k, i := i, pos := pos }) := by
  obtain ⟨hlife, hprotocol, hpulse, hpasses, -, hdelays⟩ := hf
  have hkept : Kept (s.fly { f with k := k, i := i, pos := pos }) := ⟨h.repeat_nonneg, h.line, h.answers⟩
  refine hkept.inv rfl fun g hg => ?_
  obtain rfl := Option.some.inj hg
  exact ⟨hlife, hprotocol, hpulse, hpasses, hk, hdelays⟩

/-! ### Every step keeps the invariant -/

/-- The waveform the sequencer stands in belongs to the plan the delay check admitted. -/
theorem Flight.Admitted.driven {s : State} {f : Flight} {es : List Effect} (hf : f.Admitted s) (hk : f.k < f.passes)
    (hw : f.waveHere = some es) : ∀ e ∈ es, e.Driven := by
  obtain ⟨-, hprotocol, hpulse, -, -, hdelays⟩ := hf
  obtain ⟨w, hget, rfl⟩ := Option.map_eq_some_iff.mp hw
  have hin : ∀ t ∈ w, t.inRange f.pulse = true := by
    intro t ht
    rw [hpulse]
    refine List.all_eq_true.mp hdelays t (Job.mem_plan.mpr ⟨by omega, ?_⟩)
    rw [← hprotocol]
    exact List.mem_flatten.mpr ⟨w, List.mem_of_getElem? hget, ht⟩
  exact fun e he => driven_of_mem_waveEffects hin he

theorem Inv.advance {s : State} {f : Flight} (h : Inv s) (hflight : s.flight = some f) : Inv (advance f s) := by
  have hf := h.admitted hflight
  have hl : s.life ≠ .disposed := by simp [hf.1]
  obtain ⟨es, e, hk, hw, he, hadv⟩ | ⟨-, k, i, hk, hadv⟩ | ⟨-, hadv⟩ := advance_cases f s <;> rw [hadv]
  · have hemit : Kept (s.emit e) := h.kept.emit hl (hf.driven hk hw e he)
    exact hemit.inv_fly (f := f) hf f.i (f.pos + 1) hk.le
  · exact h.kept.inv_fly hf i 0 hk
  · exact h.kept.inv_answerOk

theorem LineAnswer.inv {s t : State} (ht : LineAnswer s t) (h : Kept s) : Inv t := by
  cases ht with
  | failed status _ hs => exact h.inv_fail hs
  | nothing => exact h.inv_answerOk
  | performed j n ha hr => exact (h.emitAll (by simp [ha]) (driven_of_mem_plan hr)).inv_answerOk

theorem Answered.inv {i : Instr} {s t : State} (ht : Answered i s t) (h : Kept s) : Inv t := by
  cases ht with
  | failed status _ hs => exact h.inv_fail hs
  | line _ _ ht => exact ht.inv h
  | protocolSet pr => exact (h.assignProtocol _ pr).inv_answerOk
  | pulseSet val => exact Kept.inv_answerOk (s := { s with pulse := val }) ⟨h.repeat_nonneg, h.line, h.answers⟩
  | repeatSet val _ hval => exact Kept.inv_answerOk (s := { s with repeatCount := val }) ⟨hval, h.line, h.answers⟩
  | returned a ha => exact h.inv_answer (clean_of_ok ha)
  | disposed _ ha => exact (h.releaseLine (by simp [ha])).inv_answerOk

/-- Settles O21, by the three things a step can do: a move of the command in flight, a wait, or one whole command. -/
theorem everyStepKeepsTheInvariant : Obligations.EveryStepKeepsTheInvariant := by
  intro s t h hstep
  obtain ⟨-, f, hf, rfl⟩ | ⟨-, -, rfl⟩ | ⟨-, p, rest, -, ⟨why, -, rfl⟩ | ⟨i, -, ht⟩⟩ := step_cases hstep
  · exact h.advance hf
  · exact h
  · exact (h.kept.accept rest).inv_fail (by simp)
  · exact ht.inv (h.kept.accept rest)

/-- Settles O20: nothing has been emitted or answered, and nothing is in flight. -/
theorem invariantHoldsAtReset : Obligations.InvariantHoldsAtReset := by
  have hkept : Kept State.reset := ⟨by decide, lineKept_nil _ (by decide), by simp [State.reset]⟩
  exact hkept.inv rfl (by simp [State.reset])

/-- Settles O2, field by field. -/
theorem resetStateIsAConstructedBlock : Obligations.ResetStateIsAConstructedBlock :=
  ⟨rfl, rfl, rfl, rfl, rfl, rfl, rfl, rfl, rfl, rfl⟩

/-! ### The port -/

theorem step_busy {s : State} {f : Flight} (hb : s.busy = true) (hf : s.flight = some f) :
    step s = .next (advance f s) := by
  simp [step, proceed, hb, hf]

theorem serve_next (p : Packet) (rest : List Packet) (s : State) : ∃ t, serve p rest s = .next t := by
  rw [serve]
  split
  · exact ⟨_, rfl⟩
  · obtain ⟨t, ht, -⟩ := exec_cases _ (s.accept rest)
    exact ⟨t, ht⟩

/-- The idle port never stops. -/
theorem step_idle_next {s : State} (hb : s.busy = false) : ∃ t, step s = .next t := by
  have hidle : step s = idle s := by simp [step, hb]
  rw [hidle, idle]
  split
  · exact ⟨_, rfl⟩
  · exact serve_next ..

/-- Settles O22: a busy port has a command in flight to move, and the idle port never stops. -/
theorem noStepStopsUnderTheInvariant : Obligations.NoStepStopsUnderTheInvariant := by
  intro s h
  cases hb : s.busy with
  | false => exact step_idle_next hb
  | true =>
    obtain ⟨f, hf⟩ := Option.isSome_iff_exists.mp (h.busy_iff_flight ▸ hb)
    exact ⟨_, step_busy hb hf⟩

/-- Settles O15, by the three moves of the sequencer. -/
theorem busyPortAcceptsNothing : Obligations.BusyPortAcceptsNothing := by
  intro s t hb hstep
  obtain ⟨-, f, -, rfl⟩ | ⟨hidle, -⟩ | ⟨hidle, -⟩ := step_cases hstep
  · obtain ⟨-, e, -, -, -, hadv⟩ | ⟨-, k, i, -, hadv⟩ | ⟨-, hadv⟩ := advance_cases f s <;> rw [hadv]
    · exact ⟨rfl, rfl, rfl, rfl, rfl, rfl, .inl ⟨rfl, rfl, .inr ⟨e, rfl⟩⟩⟩
    · exact ⟨rfl, rfl, rfl, rfl, rfl, rfl, .inl ⟨rfl, rfl, .inl ⟨rfl, rfl⟩⟩⟩
    · exact ⟨rfl, rfl, rfl, rfl, rfl, rfl, .inr s.answerOk_after⟩
  · exact absurd hb (by simp [hidle])
  · exact absurd hb (by simp [hidle])

/-! ### Registers and line under a command -/

/-- A line-driving command changes the line and the port only (20_memory.md R50). -/
theorem LineAnswer.frame {s t : State} (h : LineAnswer s t) :
    t.protocol = s.protocol ∧ t.pulse = s.pulse ∧ t.repeatCount = s.repeatCount ∧ t.life = s.life ∧
      t.draws = s.draws := by
  cases h with
  | failed | nothing | performed => exact ⟨rfl, rfl, rfl, rfl, rfl⟩

/-- Settles O27, from the list of everything a command can do. -/
theorem registersAreWrittenOnlyByTheirCommands : Obligations.RegistersAreWrittenOnlyByTheirCommands := by
  intro i s t hexec
  cases exec_answered hexec with
  | failed status => simp [State.fail_eq]
  | line _ hi ht =>
    obtain ⟨hprotocol, hpulse, hrepeat, hlife, hdraws⟩ := ht.frame
    simp [hprotocol, hpulse, hrepeat, hlife, hdraws, hi]
  | protocolSet pr hi => simp [State.answerOk_eq, hi]
  | pulseSet val hi => simp [State.answerOk_eq, hi]
  | repeatSet val hi => simp [State.answerOk_eq, hi]
  | returned a => simp
  | disposed hi => simp [State.answerOk_eq, hi]

/-- A waveform that transmits anything ends in a low segment (41_waveform.md R82). -/
theorem waveEffects_ends_low (pulse : Word) {w : List Transmit} (hw : w ≠ []) :
    ∃ tr n, waveEffects pulse w = tr ++ [.write .low, .delay n] := by
  obtain rfl | ⟨w, t, rfl⟩ := List.eq_nil_or_concat w
  · exact absurd rfl hw
  · refine ⟨waveEffects pulse w ++ [.write .high, .delay (delayOf pulse t.high).toNat], (delayOf pulse t.low).toNat, ?_⟩
    simp [waveEffects, Transmit.effects]

theorem LineAnswer.ends_low {s t : State} (h : LineAnswer s t) :
    t.trace = s.trace ∧ t.out = s.out ∨
      t.out = .low ∧ ∃ tr n, t.trace = s.trace ++ tr ++ [.write .low, .delay n] := by
  cases h with
  | failed => exact .inl ⟨rfl, rfl⟩
  | nothing => exact .inl ⟨rfl, rfl⟩
  | performed j n =>
    by_cases hplan : j.plan s.protocol n = []
    · simp [hplan, State.answerOk_eq]
    · obtain ⟨tr, m, htr⟩ := waveEffects_ends_low s.pulse hplan
      refine .inr ⟨?_, tr, m, ?_⟩
      · simp [State.answerOk_eq, levelAfterAll_waveEffects, hplan]
      · simp [State.answerOk_eq, htr]

/-- Settles O36, from what a line-driving command can answer. -/
theorem everyWaveformEndsLow : Obligations.EveryWaveformEndsLow := by
  intro i s t hi hexec
  obtain ⟨u, hu, hline⟩ := exec_lineAnswer i s hi
  rw [hexec] at hu
  cases hu
  exact hline.ends_low

/-! ### Single moves and whole commands -/

theorem advance_busy_eq_flight (f : Flight) (s : State) : (advance f s).busy = (advance f s).flight.isSome := by
  obtain ⟨-, e, -, -, -, hadv⟩ | ⟨-, k, i, -, hadv⟩ | ⟨-, hadv⟩ := advance_cases f s <;> rw [hadv] <;> rfl

theorem run_succ_of_next {M : Host.Core} {s t : M.State} (h : M.step s = .next t) (m : Nat) :
    M.run (m + 1) s = M.run m t := by
  simp [Host.Core.run, h]

/-- What driving the sequencer reaches, some number of steps of the machine reaches: `drive` stops when the command has
ended, so the steps never run on into the next packet. -/
theorem exists_run_eq_drive (n : Nat) (s : State) (h : s.busy = s.flight.isSome) :
    ∃ m, Host.Core.run Sys2Proof.core m s = .next (drive n s) := by
  induction n generalizing s with
  | zero => exact ⟨0, rfl⟩
  | succ n ih =>
    cases hf : s.flight with
    | none => exact ⟨0, by rw [drive_done _ _ hf]; rfl⟩
    | some f =>
      obtain ⟨m, hm⟩ := ih (advance f s) (advance_busy_eq_flight f s)
      have hstep : step s = .next (advance f s) := step_busy (by simp [h, hf]) hf
      have hdrive : drive (n + 1) s = drive n (advance f s) := by simp [drive, hf]
      exact ⟨m + 1, hdrive ▸ (run_succ_of_next (M := Sys2Proof.core) hstep m).trans hm⟩

/-- An admitted job, stepped move by move from its launch, reaches the state `perform` answers. -/
theorem exists_run_eq_perform {j : Job} {n : Nat} {s t : State} (h : s.delaysInRange j n = true)
    (ht : perform j n s = .next t) : ∃ m, Host.Core.run Sys2Proof.core m (s.fly (s.launch j n)) = .next t := by
  obtain ⟨m, hm⟩ := exists_run_eq_drive (jobMoves (s.launch j n)) (s.fly (s.launch j n)) rfl
  rw [perform, if_pos h] at ht
  exact ⟨m, hm.trans ht⟩

theorem State.passes_eq {s : State} {n : Nat} (h : s.repeatCount.toInt = n) : s.passes = n := by
  simp [State.passes, asI32, h]

theorem exec_sendTriState {s : State} (cw : Codeword) (h : s.life = .active) :
    exec (.sendTriState cw) s = perform (.triState cw) s.passes s :=
  whenActive_active _ h

theorem exec_sendBin {s : State} (cw : Codeword) (h : s.life = .active) :
    exec (.sendBin cw) s = perform (.binary cw) s.passes s :=
  whenActive_active _ h

/-- Settles O50: `exec` performs the job, and the single moves from its launch reach what `perform` answers. -/
theorem sequencerStepsAddUpToTheCommand : Obligations.SequencerStepsAddUpToTheCommand := by
  rintro s n p hactive hn hsync cw t u rfl rfl
  refine ⟨⟨?_, ?_⟩, ?_, ?_⟩
  · rw [exec_sendTriState cw hactive, State.passes_eq hn, perform_triState cw hsync]
  · exact exists_run_eq_perform (passes_admitted (triState_isPasses _ cw) hsync) (perform_triState cw hsync)
  · rw [exec_sendBin cw hactive, State.passes_eq hn, perform_binary cw hsync]
  · exact exists_run_eq_perform (passes_admitted (binary_isPasses _ cw) hsync) (perform_binary cw hsync)

end Sys2Proof.Machine

/-! SUPPORT and CERTIFICATE. What a command can see of the state (20_memory.md): each shared operation of the commands
behaves alike on two states of one lifecycle and one configuration, and so does every command. -/

namespace Sys2Proof.Machine

/-! ### What is common to two runs of a command -/

/-- Two states of one lifecycle and one configuration; they may differ in anything else. -/
structure SameConfig (s₁ s₂ : State) : Prop where
  life : s₁.life = s₂.life
  protocol : s₁.protocol = s₂.protocol
  pulse : s₁.pulse = s₂.pulse
  repeatCount : s₁.repeatCount = s₂.repeatCount

/-- From `s₁` and from `s₂` the results append the same effects, give the same one answer and leave the same lifecycle
and configuration. -/
def SameOutcome (s₁ s₂ : State) (r₁ r₂ : Result) : Prop :=
  ∃ t₁ t₂ tr a, r₁ = .next t₁ ∧ r₂ = .next t₂ ∧
    (t₁.trace = s₁.trace ++ tr ∧ t₂.trace = s₂.trace ++ tr) ∧
    (t₁.answers = s₁.answers ++ [a] ∧ t₂.answers = s₂.answers ++ [a]) ∧ SameConfig t₁ t₂

section

variable {s₁ s₂ : State}

/-! ### What a command reads and writes is alike -/

theorem SameConfig.passes (h : SameConfig s₁ s₂) : s₁.passes = s₂.passes := by
  simp [State.passes, h.repeatCount]

theorem SameConfig.delaysInRange (h : SameConfig s₁ s₂) (j : Job) (n : Nat) :
    s₁.delaysInRange j n = s₂.delaysInRange j n := by
  simp [State.delaysInRange, h.protocol, h.pulse]

theorem SameConfig.assignProtocol (h : SameConfig s₁ s₂) (policy : RebaselinePolicy) (p : Protocol) :
    SameConfig (s₁.assignProtocol policy p) (s₂.assignProtocol policy p) where
  life := by simpa using h.life
  protocol := by simp
  pulse := by
    rcases lt_or_ge 0 (asI32 s₂.pulse) with hp | hp
    · rw [State.assignProtocol_pos s₁ _ _ (h.pulse ▸ hp), State.assignProtocol_pos s₂ _ _ hp]; exact h.pulse
    · rw [State.assignProtocol_nonpos s₁ _ _ (h.pulse ▸ hp), State.assignProtocol_nonpos s₂ _ _ hp]
  repeatCount := by simpa using h.repeatCount

theorem SameConfig.emitAll (h : SameConfig s₁ s₂) (es : List Effect) : SameConfig (s₁.emitAll es) (s₂.emitAll es) :=
  ⟨h.life, h.protocol, h.pulse, h.repeatCount⟩

theorem SameConfig.releaseLine (h : SameConfig s₁ s₂) : SameConfig s₁.releaseLine s₂.releaseLine :=
  ⟨rfl, h.protocol, h.pulse, h.repeatCount⟩

/-! ### The shared operations behave alike -/

/-- The same effects and the same answer, on states whose configuration the command may have rewritten alike. -/
theorem SameConfig.answer_after {u₁ u₂ : State} (h : SameConfig u₁ u₂) (tr : List Effect) (a : Answer)
    (htr : u₁.trace = s₁.trace ++ tr ∧ u₂.trace = s₂.trace ++ tr)
    (hans : u₁.answers = s₁.answers ∧ u₂.answers = s₂.answers) :
    SameOutcome s₁ s₂ (.next (u₁.answer a)) (.next (u₂.answer a)) :=
  ⟨_, _, tr, a, rfl, rfl, htr, by simp [hans], h.life, h.protocol, h.pulse, h.repeatCount⟩

/-- An answer and nothing else. -/
theorem SameConfig.answer (h : SameConfig s₁ s₂) (a : Answer) :
    SameOutcome s₁ s₂ (.next (s₁.answer a)) (.next (s₂.answer a)) :=
  h.answer_after [] a (by simp) ⟨rfl, rfl⟩

theorem SameConfig.whenConstructed (h : SameConfig s₁ s₂) {k₁ k₂ : Result} (hk : SameOutcome s₁ s₂ k₁ k₂) :
    SameOutcome s₁ s₂ (whenConstructed s₁ k₁) (whenConstructed s₂ k₂) := by
  by_cases hl : s₂.life = .unconfigured
  · rw [whenConstructed_unconfigured _ (h.life.trans hl), whenConstructed_unconfigured _ hl]
    exact h.answer _
  · rwa [whenConstructed_of _ (h.life ▸ hl), whenConstructed_of _ hl]

theorem SameConfig.whenActive (h : SameConfig s₁ s₂) {k₁ k₂ : Result} (hk : SameOutcome s₁ s₂ k₁ k₂) :
    SameOutcome s₁ s₂ (whenActive s₁ k₁) (whenActive s₂ k₂) := by
  cases hl : s₂.life with
  | unconfigured =>
    rw [whenActive_unconfigured _ (h.life.trans hl), whenActive_unconfigured _ hl]
    exact h.answer _
  | active => rwa [whenActive_active _ (h.life.trans hl), whenActive_active _ hl]
  | disposed =>
    rw [whenActive_disposed _ (h.life.trans hl), whenActive_disposed _ hl]
    exact h.answer _

theorem SameConfig.withCodeword (h : SameConfig s₁ s₂) (built : Except Status Codeword) {k₁ k₂ : Codeword → Result}
    (hk : ∀ cw, SameOutcome s₁ s₂ (k₁ cw) (k₂ cw)) :
    SameOutcome s₁ s₂ (withCodeword built s₁ k₁) (withCodeword built s₂ k₂) := by
  cases built with
  | ok cw => exact hk cw
  | error status => exact h.answer _

/-- A job reads its delays and its plan from the configuration, and the delay check decides for both states alike. -/
theorem SameConfig.perform (h : SameConfig s₁ s₂) (j : Job) (n : Nat) :
    SameOutcome s₁ s₂ (perform j n s₁) (perform j n s₂) := by
  obtain ⟨hd, hp⟩ | ⟨hd, hp⟩ := perform_cases j n s₂
  · rw [hp, perform_admitted _ _ _ ((h.delaysInRange j n).trans hd), h.protocol, h.pulse]
    exact (h.emitAll _).answer_after _ _ ⟨rfl, rfl⟩ ⟨rfl, rfl⟩
  · rw [hp, perform_out_of_range _ _ _ ((h.delaysInRange j n).trans hd)]
    exact h.answer _

/-- A codeword job, which makes `cfg.repeat` passes. -/
theorem SameConfig.perform_passes (h : SameConfig s₁ s₂) (j : Job) :
    SameOutcome s₁ s₂ (Machine.perform j s₁.passes s₁) (Machine.perform j s₂.passes s₂) :=
  h.passes ▸ h.perform j _

/-! ### The commands behave alike -/

theorem SameConfig.switchA (h : SameConfig s₁ s₂) (policy : OutOfRangePolicy) (ga : BitVec 5) (galen : BitVec 8)
    (dev : BitVec 3) (on : Bool) :
    SameOutcome s₁ s₂ (switchA policy ga galen dev on s₁) (switchA policy ga galen dev on s₂) := by
  refine h.whenActive ?_
  split
  · exact h.answer _
  · split
    · exact h.answer _
    · exact h.withCodeword _ fun cw => h.perform_passes (.triState cw)

theorem SameConfig.switchB (h : SameConfig s₁ s₂) (policy : OutOfRangePolicy) (ad ch : BitVec 3) (on : Bool) :
    SameOutcome s₁ s₂ (switchB policy ad ch on s₁) (switchB policy ad ch on s₂) :=
  h.whenActive (h.withCodeword _ fun cw => h.perform_passes (.triState cw))

/-- DISPOSE: the draw counter sets the level of OUT alone, which no command reads. -/
theorem SameConfig.dispose (h : SameConfig s₁ s₂) : SameOutcome s₁ s₂ (execDispose s₁) (execDispose s₂) := by
  unfold execDispose
  rw [h.life]
  cases s₂.life with
  | unconfigured => exact h.answer _
  | active => exact h.releaseLine.answer_after [.release] _ ⟨rfl, rfl⟩ ⟨rfl, rfl⟩
  | disposed => exact h.answer _

theorem SameConfig.setProtocol (h : SameConfig s₁ s₂) (pr : Protocol) :
    SameOutcome s₁ s₂ (execSetProtocol pr s₁) (execSetProtocol pr s₂) :=
  h.whenConstructed ((h.assignProtocol _ pr).answer_after [] _ (by simp) (by simp))

theorem SameConfig.setPulseLength (h : SameConfig s₁ s₂) (val : Word) :
    SameOutcome s₁ s₂ (execSetPulseLength val s₁) (execSetPulseLength val s₂) := by
  have hset : SameConfig { s₁ with pulse := val } { s₂ with pulse := val } := ⟨h.life, h.protocol, rfl, h.repeatCount⟩
  exact h.whenConstructed (hset.answer_after [] _ (by simp) ⟨rfl, rfl⟩)

theorem SameConfig.setRepeatCount (h : SameConfig s₁ s₂) (val : Word) :
    SameOutcome s₁ s₂ (execSetRepeatCount val s₁) (execSetRepeatCount val s₂) := by
  have hset : SameConfig { s₁ with repeatCount := val } { s₂ with repeatCount := val } :=
    ⟨h.life, h.protocol, h.pulse, rfl⟩
  refine h.whenConstructed ?_
  split
  · exact h.answer _
  · exact hset.answer_after [] _ (by simp) ⟨rfl, rfl⟩

theorem SameConfig.decToBin (h : SameConfig s₁ s₂) (value : Word) (bitlen : BitVec 8) :
    SameOutcome s₁ s₂ (execDecToBin value bitlen s₁) (execDecToBin value bitlen s₂) := by
  refine h.whenConstructed ?_
  split
  · exact h.answer _
  · exact h.answer _

/-- Every command behaves alike on two states of one lifecycle and one configuration. -/
theorem SameConfig.exec (h : SameConfig s₁ s₂) (i : Instr) : SameOutcome s₁ s₂ (exec i s₁) (exec i s₂) := by
  cases i with
  | setProtocol pr => exact h.setProtocol pr
  | setPulseLength val => exact h.setPulseLength val
  | setRepeatCount val => exact h.setRepeatCount val
  | getProtocol => exact h.whenConstructed (h.protocol ▸ h.answer _)
  | getPulseLength => exact h.whenConstructed (h.pulse ▸ h.answer _)
  | getRepeatCount => exact h.whenConstructed (h.repeatCount ▸ h.answer _)
  | dispose => exact h.dispose
  | transmit _ _ => exact h.whenActive (h.perform _ _)
  | sendSync => exact h.whenActive (h.protocol ▸ h.perform _ _)
  | sendBit0 => exact h.whenActive (h.protocol ▸ h.perform _ _)
  | sendBit1 => exact h.whenActive (h.protocol ▸ h.perform _ _)
  | sendTri0 => exact h.whenActive (h.perform _ _)
  | sendTri1 => exact h.whenActive (h.perform _ _)
  | sendTriF => exact h.whenActive (h.perform _ _)
  | buildTypeA _ _ _ => exact h.whenConstructed (h.withCodeword _ fun _ => h.answer _)
  | buildTypeB _ _ _ => exact h.whenConstructed (h.withCodeword _ fun _ => h.answer _)
  | switchOnA _ _ _ => exact h.switchA ..
  | switchOffA _ _ _ => exact h.switchA ..
  | switchOnB _ _ => exact h.switchB ..
  | switchOffB _ _ => exact h.switchB ..
  | sendTriState _ => exact h.whenActive (h.perform_passes _)
  | sendBin _ => exact h.whenActive (h.perform_passes _)
  | decToBin value bitlen => exact h.decToBin value bitlen

end

/-- Settles O35, from the noninterference of every command. -/
theorem commandsDependOnTheConfigurationAlone : Obligations.CommandsDependOnTheConfigurationAlone := by
  intro i s₁ s₂ hlife hprotocol hpulse hrepeat
  have hsame : SameConfig s₁ s₂ := ⟨hlife, hprotocol, hpulse, hrepeat⟩
  obtain ⟨t₁, t₂, tr, a, h₁, h₂, ⟨htr₁, htr₂⟩, ⟨hans₁, hans₂⟩, ht⟩ := hsame.exec i
  exact ⟨t₁, t₂, tr, a, h₁, h₂, htr₁, htr₂, hans₁, hans₂, ht.life, ht.protocol, ht.pulse, ht.repeatCount⟩

end Sys2Proof.Machine

/-! SUPPORT and CERTIFICATE. The encoding (30_encoding.md): the two round trips between commands and packets, each read
off one fact about every command and one about every opcode, and the decoder's answers in the order of R64. -/

namespace Sys2Proof

/-! ### A command is read back from its own packet -/

theorem packetClean (i : Instr) : Laws.PacketClean.Statement i := by
  cases i with
  | setProtocol pr => exact Laws.PacketClean.setProtocol pr
  | setPulseLength val => exact Laws.PacketClean.setPulseLength val
  | setRepeatCount val => exact Laws.PacketClean.setRepeatCount val
  | getProtocol => exact Laws.PacketClean.getProtocol
  | getPulseLength => exact Laws.PacketClean.getPulseLength
  | getRepeatCount => exact Laws.PacketClean.getRepeatCount
  | dispose => exact Laws.PacketClean.dispose
  | transmit hu lu => exact Laws.PacketClean.transmit hu lu
  | sendSync => exact Laws.PacketClean.sendSync
  | sendBit0 => exact Laws.PacketClean.sendBit0
  | sendBit1 => exact Laws.PacketClean.sendBit1
  | sendTri0 => exact Laws.PacketClean.sendTri0
  | sendTri1 => exact Laws.PacketClean.sendTri1
  | sendTriF => exact Laws.PacketClean.sendTriF
  | buildTypeA ga ch st => exact Laws.PacketClean.buildTypeA ga ch st
  | buildTypeB ad ch st => exact Laws.PacketClean.buildTypeB ad ch st
  | switchOnA ga galen dev => exact Laws.PacketClean.switchOnA ga galen dev
  | switchOffA ga galen dev => exact Laws.PacketClean.switchOffA ga galen dev
  | switchOnB ad ch => exact Laws.PacketClean.switchOnB ad ch
  | switchOffB ad ch => exact Laws.PacketClean.switchOffB ad ch
  | sendTriState cw => exact Laws.PacketClean.sendTriState cw
  | sendBin cw => exact Laws.PacketClean.sendBin cw
  | decToBin value bitlen => exact Laws.PacketClean.decToBin value bitlen

/-- The fields of a command's packet are the command's operands (30_encoding.md R60). -/
theorem build_encode (i : Instr) : i.opcode.build (encode i) = i := by
  cases i with
  | setProtocol pr =>
    exact congrArg Instr.setProtocol
      ((congrArg Protocol.ofCode (extract_setWidth (by decide) pr.code)).trans (Protocol.ofCode_code pr))
  | buildTypeA ga ch st =>
    exact congr (congrArg₂ Instr.buildTypeA (extract_setWidth (by decide) ga) (packChannel_ch ch st))
      (packChannel_st ch st)
  | buildTypeB ad ch st =>
    exact congr (congrArg₂ Instr.buildTypeB (extract_setWidth (by decide) ad) (packChannel_ch ch st))
      (packChannel_st ch st)
  | switchOnA ga galen dev =>
    exact congr (congrArg₂ Instr.switchOnA (packGroup_ga ga galen) (packGroup_galen ga galen))
      (extract_setWidth (by decide) dev)
  | switchOffA ga galen dev =>
    exact congr (congrArg₂ Instr.switchOffA (packGroup_ga ga galen) (packGroup_galen ga galen))
      (extract_setWidth (by decide) dev)
  | switchOnB ad ch =>
    exact congrArg₂ Instr.switchOnB (extract_setWidth (by decide) ad) (extract_setWidth (by decide) ch)
  | switchOffB ad ch =>
    exact congrArg₂ Instr.switchOffB (extract_setWidth (by decide) ad) (extract_setWidth (by decide) ch)
  | sendTriState cw => exact congrArg Instr.sendTriState (Packet.symbols_map_code cw)
  | sendBin cw => exact congrArg Instr.sendBin (Packet.symbols_map_code cw)
  | decToBin value bitlen => exact congrArg (Instr.decToBin value) (extract_setWidth (by decide) bitlen)
  | setPulseLength _ | setRepeatCount _ | getProtocol | getPulseLength | getRepeatCount | dispose | transmit _ _
  | sendSync | sendBit0 | sendBit1 | sendTri0 | sendTri1 | sendTriF => rfl

theorem groupFits_of_packGroup {p : Packet} {ga : BitVec 5} {galen : BitVec 8} (h : p.a0 = packGroup ga galen) :
    groupFits p.ga p.galen = groupFits ga galen := by
  rw [Packet.ga, Packet.galen, h, packGroup_ga, packGroup_galen]

/-- What well-formedness asks of a command, said of its packet: the two checks of 30_encoding.md R64 that read an
operand. -/
theorem wellFormed_iff (i : Instr) :
    i.wellFormed = true ↔ (encode i).cw.length ≤ Config.cwMax ∧
      (i.opcode.format = .SA → groupFits (encode i).ga (encode i).galen = true) := by
  cases i with
  | switchOnA ga galen dev =>
    rw [groupFits_of_packGroup (p := encode (.switchOnA ga galen dev)) rfl]
    exact ⟨fun h => ⟨Nat.zero_le _, fun _ => h⟩, fun h => h.2 rfl⟩
  | switchOffA ga galen dev =>
    rw [groupFits_of_packGroup (p := encode (.switchOffA ga galen dev)) rfl]
    exact ⟨fun h => ⟨Nat.zero_le _, fun _ => h⟩, fun h => h.2 rfl⟩
  | sendTriState cw | sendBin cw =>
    simp [Instr.wellFormed, Codeword.fits, Instr.opcode, Opcode.format, encode, Instr.codeword]
  | setProtocol _ | setPulseLength _ | setRepeatCount _ | getProtocol | getPulseLength | getRepeatCount | dispose
  | transmit _ _ | sendSync | sendBit0 | sendBit1 | sendTri0 | sendTri1 | sendTriF | buildTypeA _ _ _ | buildTypeB _ _ _
  | switchOnB _ _ | switchOffB _ _ | decToBin _ _ => exact ⟨fun _ => ⟨Nat.zero_le _, nofun⟩, fun _ => rfl⟩

/-- Settles O8: the packet passes every check of the decoder, and its fields are the operands. -/
theorem decodeOfEncodeIsTheInstruction : Obligations.DecodeOfEncodeIsTheInstruction := by
  intro i hwf
  obtain ⟨hlen, hgroup⟩ := (wellFormed_iff i).mp hwf
  obtain ⟨h0, h1, hcw⟩ := packetClean i
  rw [decode_of_clean (Opcode.ofCode_code i.opcode) h0 h1 hcw hlen hgroup, build_encode]

/-! ### A packet free of reserved bits is written back from what was read -/

theorem eq_zero_of_all_reserved {w : Word} (h : w &&& 0xFFFFFFFF#32 = 0#32) : 0#32 = w :=
  (BitVec.and_allOnes (x := w) ▸ h).symm

theorem encodeA0_build {o : Opcode} {p : Packet} (h : p.a0 &&& o.format.reservedA0 = 0#32) :
    (o.build p).encodeA0 = p.a0 := by
  cases o with
  | setProtocol =>
    exact (congrArg (BitVec.setWidth 32) (Protocol.code_ofCode p.pr)).trans (extract_low_of_reserved (by decide) h)
  | buildTypeA | buildTypeB | switchOnB | switchOffB => exact extract_low_of_reserved (by decide) h
  | switchOnA | switchOffA => exact packGroup_of_reserved h
  | setPulseLength | setRepeatCount | transmit | decToBin => rfl
  | getProtocol | getPulseLength | getRepeatCount | dispose | sendSync | sendBit0 | sendBit1 | sendTri0 | sendTri1
  | sendTriF | sendTriState | sendBin => exact eq_zero_of_all_reserved h

theorem encodeA1_build {o : Opcode} {p : Packet} (h : p.a1 &&& o.format.reservedA1 = 0#32) :
    (o.build p).encodeA1 = p.a1 := by
  cases o with
  | buildTypeA | buildTypeB => exact packChannel_of_reserved h
  | switchOnA | switchOffA | switchOnB | switchOffB | decToBin => exact extract_low_of_reserved (by decide) h
  | transmit => rfl
  | setProtocol | setPulseLength | setRepeatCount | getProtocol | getPulseLength | getRepeatCount | dispose | sendSync
  | sendBit0 | sendBit1 | sendTri0 | sendTri1 | sendTriF | sendTriState | sendBin => exact eq_zero_of_all_reserved h

theorem codeword_build {o : Opcode} {p : Packet} (h : o.format ≠ .C → p.cw = []) :
    (o.build p).codeword.map Symbol.code = p.cw := by
  cases o with
  | sendTriState | sendBin => exact p.map_code_symbols
  | setProtocol | setPulseLength | setRepeatCount | getProtocol | getPulseLength | getRepeatCount | dispose | transmit
  | sendSync | sendBit0 | sendBit1 | sendTri0 | sendTri1 | sendTriF | buildTypeA | buildTypeB | switchOnA | switchOffA
  | switchOnB | switchOffB | decToBin => exact (h (by decide)).symm

theorem encode_build {o : Opcode} {p : Packet} (ho : o.code = p.op) (h0 : p.a0 &&& o.format.reservedA0 = 0#32)
    (h1 : p.a1 &&& o.format.reservedA1 = 0#32) (hcw : o.format ≠ .C → p.cw = []) : encode (o.build p) = p := by
  simp only [encode, Instr.opcode_build, ho, encodeA0_build h0, encodeA1_build h1, codeword_build hcw]

/-- Settles O9: an accepted packet passed every check, so its fields hold every bit of it. -/
theorem encodeOfDecodeIsThePacket : Obligations.EncodeOfDecodeIsThePacket := by
  intro p i hdecode
  obtain ⟨o, ho, rfl, h0, h1, hcw, hlen, hgroup⟩ := decode_ok hdecode
  have hencode : encode (o.build p) = p := encode_build (Opcode.ofCode_eq_some ho) h0 h1 hcw
  refine ⟨hencode, (wellFormed_iff _).mpr ?_⟩
  rw [hencode, Instr.opcode_build]
  exact ⟨hlen, hgroup⟩

/-! ### The decoder's answers -/

section

variable {p : Packet} {o : Opcode}

theorem decode_unassigned (h : Opcode.ofCode p.op = none) : decode p = .error .unassignedOpcode := by
  simp [decode, h]

theorem decode_reserved (ho : Opcode.ofCode p.op = some o)
    (h : p.a0 &&& o.format.reservedA0 ≠ 0#32 ∨ p.a1 &&& o.format.reservedA1 ≠ 0#32) :
    decode p = .error .reservedBitSet := by
  simp only [decode, ho, if_pos h]

theorem decode_unexpected (ho : Opcode.ofCode p.op = some o) (h0 : p.a0 &&& o.format.reservedA0 = 0#32)
    (h1 : p.a1 &&& o.format.reservedA1 = 0#32) (hf : o.format ≠ .C) (hcw : p.cw ≠ []) :
    decode p = .error .unexpectedCodeword := by
  simp [decode, ho, h0, h1, hf, hcw]

theorem decode_tooLong (ho : Opcode.ofCode p.op = some o) (h0 : p.a0 &&& o.format.reservedA0 = 0#32)
    (h1 : p.a1 &&& o.format.reservedA1 = 0#32) (hf : o.format = .C) (hlen : Config.cwMax < p.cw.length) :
    decode p = .error .codewordTooLong := by
  simp only [decode, ho, h0, h1]
  simp [hf, hlen]

theorem decode_strayGroupBit (ho : Opcode.ofCode p.op = some o) (h0 : p.a0 &&& o.format.reservedA0 = 0#32)
    (h1 : p.a1 &&& o.format.reservedA1 = 0#32) (hf : o.format = .SA) (hcw : p.cw = [])
    (hg : groupFits p.ga p.galen = false) : decode p = .error .groupAddressBitBeyondLength := by
  simp only [decode, ho, h0, h1]
  simp [hf, hcw, strayGroupBit_eq, hg]

end

/-! ### The rows of the rule -/

/-- The opcodes with the bits of `A0` and `A1` each reserves (30_encoding.md R56, R58), a row for each pair of masks. -/
def maskRows : List (List (BitVec 8) × Word × Word) :=
  [([0x04#8, 0x05#8, 0x06#8, 0x0F#8, 0x11#8, 0x12#8, 0x13#8, 0x14#8, 0x15#8, 0x16#8, 0x34#8, 0x35#8],
      0xFFFFFFFF#32, 0xFFFFFFFF#32),
    ([0x01#8], 0xFFFFFFFE#32, 0xFFFFFFFF#32),
    ([0x02#8, 0x03#8], 0#32, 0xFFFFFFFF#32),
    ([0x10#8], 0#32, 0#32),
    ([0x20#8], 0xFFFFFFE0#32, 0xFFFFFEF8#32),
    ([0x21#8], 0xFFFFFFF8#32, 0xFFFFFEF8#32),
    ([0x30#8, 0x31#8], 0xFFFF00E0#32, 0xFFFFFFF8#32),
    ([0x32#8, 0x33#8], 0xFFFFFFF8#32, 0xFFFFFFF8#32),
    ([0x40#8], 0#32, 0xFFFFFF00#32)]

theorem exists_maskRow (o : Opcode) : ∃ row ∈ maskRows, o.code ∈ row.1 := by
  have hall : ∀ o ∈ Opcode.all, ∃ row ∈ maskRows, o.code ∈ row.1 := by decide
  exact hall o o.mem_all

/-- A row holds assigned opcodes only, and the masks of their formats. -/
theorem opcode_of_mem_maskRow {row : List (BitVec 8) × Word × Word} {c : BitVec 8} (hrow : row ∈ maskRows)
    (hc : c ∈ row.1) : ∃ o : Opcode, o.code = c ∧ row.2 = (o.format.reservedA0, o.format.reservedA1) := by
  have hall : ∀ row ∈ maskRows, ∀ c ∈ row.1, ∃ o ∈ Opcode.all, o.code = c ∧
      row.2 = (o.format.reservedA0, o.format.reservedA1) := by decide
  obtain ⟨o, -, ho⟩ := hall row hrow c hc
  exact ⟨o, ho⟩

theorem format_C_iff (o : Opcode) : o.format = .C ↔ o.code = 0x34#8 ∨ o.code = 0x35#8 := by
  have hall : ∀ o ∈ Opcode.all, o.format = .C ↔ o.code = 0x34#8 ∨ o.code = 0x35#8 := by decide
  exact hall o o.mem_all

theorem format_SA_iff (o : Opcode) : o.format = .SA ↔ o.code = 0x30#8 ∨ o.code = 0x31#8 := by
  have hall : ∀ o ∈ Opcode.all, o.format = .SA ↔ o.code = 0x30#8 ∨ o.code = 0x31#8 := by decide
  exact hall o o.mem_all

/-- With the bits above `GALEN` reserved and 0, `A0` shifted down by 8 is `GALEN`. -/
theorem galen_toNat {p : Packet} (h : p.a0 &&& 0xFFFF00E0#32 = 0#32) : p.galen.toNat = (p.a0 >>> 8).toNat := by
  have hm : ∀ j < 32, 16 ≤ j → (0xFFFF00E0#32).getLsbD j = true := by decide
  have hshift : p.a0 >>> 8 = p.galen.setWidth 32 := by
    apply BitVec.eq_of_getLsbD_eq
    intro j hj
    by_cases h8 : j < 8
    · simp [Packet.galen, hj, h8]
    · have hhigh : p.a0.getLsbD (8 + j) = false := by
        by_cases h24 : 8 + j < 32
        · exact (and_mask_eq_zero_iff _ _).mp h _ h24 (hm _ h24 (by omega))
        · exact BitVec.getLsbD_of_ge _ _ (by omega)
      simp [Packet.galen, h8, hhigh]
  rw [hshift, BitVec.toNat_setWidth_of_le (by decide)]

/-- The group-address check of format SA, in the bits of `A0`. -/
theorem groupFits_packet_iff {p : Packet} (h : p.a0 &&& 0xFFFF00E0#32 = 0#32) :
    groupFits p.ga p.galen = true ↔
      5 < (p.a0 >>> 8).toNat ∨ ∀ j, (p.a0 >>> 8).toNat ≤ j → j < 5 → p.a0.getLsbD j = false := by
  have hbit : ∀ j < 5, p.ga.getLsbD j = p.a0.getLsbD j := fun j hj => by simp [Packet.ga, hj]
  rw [groupFits_iff, galen_toNat h]
  exact or_congr Iff.rfl (forall_congr' fun j => imp_congr_right fun _ => imp_congr_right fun hj => by rw [hbit j hj])

theorem groupFits_packet_eq_false {p : Packet} (h : p.a0 &&& 0xFFFF00E0#32 = 0#32) (hlen : (p.a0 >>> 8).toNat ≤ 5)
    {j : Nat} (hj : (p.a0 >>> 8).toNat ≤ j) (hj5 : j < 5) (hbit : p.a0.getLsbD j = true) :
    groupFits p.ga p.galen = false := by
  rw [Bool.eq_false_iff, Ne, groupFits_packet_iff h]
  rintro (hgt | hclear)
  · omega
  · simp [hclear j hj hj5] at hbit

/-- Settles O10: a row's masks are those of its opcodes' formats, and the checks then follow the rule's order. -/
theorem decoderRefusesByNameInOrder : Obligations.DecoderRefusesByNameInOrder := by
  intro p rows hrows
  obtain rfl : rows = maskRows := hrows
  constructor
  · intro hnone
    refine decode_unassigned (Opcode.ofCode_eq_none fun o ho => ?_)
    obtain ⟨row, hrow, hmem⟩ := exists_maskRow o
    exact hnone row hrow (ho ▸ hmem)
  · rintro ⟨codes, m0, m1⟩ hrow hop
    obtain ⟨o, hcode, hmasks⟩ := opcode_of_mem_maskRow hrow hop
    obtain ⟨rfl, rfl⟩ := Prod.mk.inj hmasks
    have ho : Opcode.ofCode p.op = some o := hcode ▸ Opcode.ofCode_code o
    have hC := format_C_iff o
    have hSA := format_SA_iff o
    rw [hcode] at hC hSA
    refine ⟨decode_reserved ho, fun ⟨h0, h1⟩ => ?_⟩
    have hmask : o.format = .SA → p.a0 &&& 0xFFFF00E0#32 = 0#32 := fun hf => by rw [hf] at h0; exact h0
    refine ⟨?_, ?_, ?_, ?_⟩
    · rintro ⟨h34, h35, hcw⟩
      exact decode_unexpected ho h0 h1 (fun hf => (hC.mp hf).elim h34 h35) hcw
    · rintro ⟨hf, hlen⟩
      exact decode_tooLong ho h0 h1 (hC.mpr hf) hlen
    · rintro ⟨hf, hcw, hlen, j, hj, hj5, hbit⟩
      have hfmt := hSA.mpr hf
      exact decode_strayGroupBit ho h0 h1 hfmt hcw (groupFits_packet_eq_false (hmask hfmt) hlen hj hj5 hbit)
    · rintro (⟨hf, hlen⟩ | ⟨h34, h35, h30, h31, hcw⟩ | ⟨hf, hcw, hfits⟩)
      · have hfmt := hC.mpr hf
        exact ⟨_, decode_of_clean ho h0 h1 (absurd hfmt) hlen fun hf' => by simp [hfmt] at hf'⟩
      · have hlen : p.cw.length ≤ Config.cwMax := by simp [hcw]
        exact ⟨_, decode_of_clean ho h0 h1 (fun _ => hcw) hlen fun hf => ((hSA.mp hf).elim h30 h31).elim⟩
      · have hlen : p.cw.length ≤ Config.cwMax := by simp [hcw]
        exact ⟨_, decode_of_clean ho h0 h1 (fun _ => hcw) hlen fun hfmt =>
          (groupFits_packet_iff (hmask hfmt)).mpr hfits⟩

end Sys2Proof

/-! SUPPORT and CERTIFICATE. Packets on the port and the results of commands (30_encoding.md R55, R68, R69): what an idle
step does with a packet, which answer each command gives, and the pseudo-commands beside the SWITCH commands. -/

namespace Sys2Proof.Machine

/-! ### Known codes and packets -/

/-- Settles O6: the code of a symbol and the symbol of a code undo each other. -/
theorem symbolCodesAreOneToOne : Obligations.SymbolCodesAreOneToOne :=
  ⟨rfl, rfl, rfl, rfl, Symbol.ofCode_code, Symbol.code_ofCode⟩

/-- Settles O7, packet by packet. -/
theorem knownPacketsDecode : Obligations.KnownPacketsDecode := by
  refine ⟨?_, ?_, ?_, ?_, ?_, ?_⟩ <;> decide

/-! ### The idle port -/

theorem step_idle {s : State} {p : Packet} {rest : List Packet} (hb : s.busy = false) (hp : s.pending = p :: rest) :
    step s = serve p rest s := by
  simp [step, idle, hb, hp]

/-- Settles O11: the idle port serves the head of the issuer's list. -/
theorem stepRunsTheDecodedInstruction : Obligations.StepRunsTheDecodedInstruction := by
  intro s p rest i hb hp hdecode
  rw [step_idle hb hp, serve, hdecode]
  rfl

/-- Settles O12: a packet the decoder rejects is accepted and refused. -/
theorem stepAnswersAnUndecodablePacketRefused : Obligations.StepAnswersAnUndecodablePacketRefused := by
  intro s p rest why hb hp hdecode
  rw [step_idle hb hp, serve, hdecode]
  exact congrArg Host.Outcome.next ((s.accept rest).refuse_after why)

theorem decode_packetOfWord {nbits w : Nat} {i : Instr} (h : decodeTableWord nbits w = some i) :
    decode (packetOfWord nbits w) = .ok i := by
  unfold decodeTableWord at h
  split at h
  · rw [‹decode _ = _›, Option.some.inj h]
  · cases h

/-- Settles O13: the placed word is at the head of the list, and the port is idle. -/
theorem placedTableWordRunsNext : Obligations.PlacedTableWordRunsNext := by
  intro s nbits w i h
  exact stepRunsTheDecodedInstruction (s.withFetchWord nbits w) _ _ i rfl rfl (decode_packetOfWord h)

/-! ### What each command reports -/

/-- The register a GET reads, and 0 for every other command (30_encoding.md R69). -/
def State.register (s : State) : Instr → Word
  | .getProtocol => s.protocol.code.setWidth 32
  | .getPulseLength => s.pulse
  | .getRepeatCount => s.repeatCount
  | _ => 0#32

/-- The commands that return a codeword (30_encoding.md R69). -/
def returnsCodeword : Instr → Bool
  | .buildTypeA _ _ _ | .buildTypeB _ _ _ | .decToBin _ _ => true
  | _ => false

/-- The answers a command may give: a failure with nothing in it, or `OK` with the register the command reads and, from
a builder only, a terminated codeword. -/
inductive Reports (s : State) (i : Instr) : Answer → Prop where
  | failed (status : Status) (h : status ≠ .ok) : Reports s i (.failed status)
  | value (hi : returnsCodeword i = false) : Reports s i ⟨.ok, s.register i, []⟩
  | codeword (cw : Codeword) (hi : returnsCodeword i = true) : Reports s i ⟨.ok, 0#32, cw ++ [.term]⟩

/-- A result gives one answer more, and it is one the command may give. -/
def Responds (s : State) (i : Instr) (r : Result) : Prop :=
  ∃ t a, r = .next t ∧ t.answers = s.answers ++ [a] ∧ Reports s i a

section

variable {s : State} {i : Instr}

theorem responds_fail {status : Status} (h : status ≠ .ok) : Responds s i (.next (s.fail status)) :=
  ⟨_, _, rfl, rfl, .failed status h⟩

theorem responds_refuse {why : RefuseReason} : Responds s i (.next (s.refuse why)) := responds_fail (by simp)

/-- A command that returns nothing, whatever else it has done to the state. -/
theorem responds_answerOk {u : State} (hu : u.answers = s.answers) (hr : s.register i = 0#32)
    (hi : returnsCodeword i = false) : Responds s i (.next u.answerOk) :=
  ⟨_, ⟨.ok, 0#32, []⟩, rfl, by rw [State.answerOk_eq, State.answer_answers, hu], hr ▸ .value hi⟩

theorem responds_register (hi : returnsCodeword i = false) : Responds s i (.next (s.answerValue (s.register i))) :=
  ⟨_, _, rfl, rfl, .value hi⟩

theorem responds_codeword (cw : Codeword) (hi : returnsCodeword i = true) :
    Responds s i (.next (s.answerCodeword (cw ++ [.term]))) :=
  ⟨_, _, rfl, rfl, .codeword cw hi⟩

theorem responds_whenConstructed {k : Result} (hk : Responds s i k) : Responds s i (whenConstructed s k) := by
  by_cases h : s.life = .unconfigured
  · rw [whenConstructed_unconfigured k h]; exact responds_refuse
  · rwa [whenConstructed_of k h]

theorem LineAnswer.responds {t : State} (h : LineAnswer s t) (hr : s.register i = 0#32)
    (hi : returnsCodeword i = false) : Responds s i (.next t) := by
  cases h with
  | failed status hs => exact responds_fail hs
  | nothing => exact responds_answerOk rfl hr hi
  | performed j n => exact responds_answerOk rfl hr hi

theorem responds_of_drivesLine (hline : i.drivesLine = true) (hr : s.register i = 0#32)
    (hi : returnsCodeword i = false) : Responds s i (exec i s) := by
  obtain ⟨t, ht, hanswer⟩ := exec_lineAnswer i s hline
  exact ht ▸ hanswer.responds hr hi

end

/-- Every command, on every state, gives one answer that it may give. -/
theorem exec_responds (i : Instr) (s : State) : Responds s i (exec i s) := by
  cases i with
  | setProtocol pr =>
    exact responds_whenConstructed (responds_answerOk (State.assignProtocol_answers ..) rfl rfl)
  | setPulseLength val => exact responds_whenConstructed (responds_answerOk rfl rfl rfl)
  | setRepeatCount val =>
    refine responds_whenConstructed ?_
    split
    · exact responds_fail (by simp)
    · exact responds_answerOk rfl rfl rfl
  | getProtocol | getPulseLength | getRepeatCount => exact responds_whenConstructed (responds_register rfl)
  | dispose =>
    change Responds s .dispose (execDispose s)
    unfold execDispose
    split
    · exact responds_refuse
    · exact responds_answerOk rfl rfl rfl
    · exact responds_answerOk rfl rfl rfl
  | buildTypeA ga ch st =>
    refine responds_whenConstructed ?_
    obtain ⟨cw, h⟩ | ⟨-, h⟩ := buildTypeA_cases Config.outOfRangePolicy ga ch st <;> rw [h]
    · exact responds_codeword cw rfl
    · exact responds_fail (by simp)
  | buildTypeB ad ch st =>
    refine responds_whenConstructed ?_
    obtain ⟨cw, h⟩ | ⟨-, h⟩ := buildTypeB_cases Config.outOfRangePolicy ad ch st <;> rw [h]
    · exact responds_codeword cw rfl
    · exact responds_fail (by simp)
  | decToBin value bitlen =>
    refine responds_whenConstructed ?_
    split
    · exact responds_refuse
    · exact responds_codeword _ rfl
  | transmit _ _ | sendSync | sendBit0 | sendBit1 | sendTri0 | sendTri1 | sendTriF | sendTriState _ | sendBin _
  | switchOnA _ _ _ | switchOffA _ _ _ | switchOnB _ _ | switchOffB _ _ => exact responds_of_drivesLine rfl rfl rfl

theorem register_getProtocol (s : State) :
    s.register .getProtocol = if s.protocol = .p1 then 0#32 else 1#32 := by
  cases h : s.protocol <;> simp [State.register, h, Protocol.code]

theorem register_of_not_get (s : State) {i : Instr} (h₁ : i ≠ .getProtocol) (h₂ : i ≠ .getPulseLength)
    (h₃ : i ≠ .getRepeatCount) : s.register i = 0#32 := by
  unfold State.register
  split
  · exact absurd rfl h₁
  · exact absurd rfl h₂
  · exact absurd rfl h₃
  · rfl

theorem returnsCodeword_iff (i : Instr) :
    returnsCodeword i = true ↔
      (∃ ga ch st, i = .buildTypeA ga ch st) ∨ (∃ ad ch st, i = .buildTypeB ad ch st) ∨ ∃ v n, i = .decToBin v n := by
  constructor
  · intro h
    unfold returnsCodeword at h
    split at h
    · exact .inl ⟨_, _, _, rfl⟩
    · exact .inr (.inl ⟨_, _, _, rfl⟩)
    · exact .inr (.inr ⟨_, _, rfl⟩)
    · cases h
  · rintro (⟨ga, ch, st, rfl⟩ | ⟨ad, ch, st, rfl⟩ | ⟨v, n, rfl⟩) <;> rfl

theorem register_of_returnsCodeword (s : State) {i : Instr} (h : returnsCodeword i = true) : s.register i = 0#32 := by
  obtain ⟨ga, ch, st, rfl⟩ | ⟨ad, ch, st, rfl⟩ | ⟨v, n, rfl⟩ := (returnsCodeword_iff i).mp h <;> rfl

/-- What an answer holds, whichever of the ways `Reports` lists it was given. -/
theorem Reports.content {s : State} {i : Instr} {a : Answer} (h : Reports s i a) :
    (a.status ≠ .ok → a.result = 0#32 ∧ a.rcw = []) ∧
      (a.status = .ok → a.result = s.register i ∧
        (returnsCodeword i = true → a.rcw.getLast? = some .term) ∧ (returnsCodeword i = false → a.rcw = [])) := by
  cases h with
  | failed status h => exact ⟨fun _ => ⟨rfl, rfl⟩, fun hok => absurd hok h⟩
  | value hi => exact ⟨fun h => absurd rfl h, fun _ => ⟨rfl, by simp [hi], fun _ => rfl⟩⟩
  | codeword cw hi =>
    exact ⟨fun h => absurd rfl h, fun _ => ⟨(register_of_returnsCodeword s hi).symm, fun _ => by simp, by simp [hi]⟩⟩

/-- Settles O19: the one answer of a command, and what it holds. -/
theorem responsesCarryOnlyTheirResults : Obligations.ResponsesCarryOnlyTheirResults := by
  intro i s
  obtain ⟨t, a, ht, hans, hreport⟩ := exec_responds i s
  obtain ⟨hfailed, hok⟩ := hreport.content
  refine ⟨t, a, ht, hans, hfailed, fun hstatus => ?_⟩
  obtain ⟨hresult, hcodeword, hempty⟩ := hok hstatus
  rw [hresult]
  refine ⟨?_, ?_, ?_, register_of_not_get s, fun hi => hcodeword ((returnsCodeword_iff i).mpr hi), fun hA hB hD => ?_⟩
  · rintro rfl; exact register_getProtocol s
  · rintro rfl; rfl
  · rintro rfl; rfl
  · refine hempty (Bool.eq_false_iff.mpr fun hi => ?_)
    obtain ⟨ga, ch, st, rfl⟩ | ⟨ad, ch, st, rfl⟩ | ⟨v, n, rfl⟩ := (returnsCodeword_iff i).mp hi
    · exact hA ga ch st rfl
    · exact hB ad ch st rfl
    · exact hD v n rfl

/-! ### The code pseudo-commands -/

section

variable {s : State} {first : Instr} {second : Codeword → Instr}

/-- The issuer sends nothing after a failure (log entry 8). -/
theorem chain_fail {status : Status} (h : exec first s = .next (s.fail status)) (hs : status ≠ .ok) :
    chain first second s = .next (s.fail status) := by
  simp [chain, h, State.fail_eq, hs]

theorem chain_codeword {cw : Codeword} (h : exec first s = .next (s.answerCodeword cw)) :
    chain first second s = exec (second cw) (s.answerCodeword cw) := by
  simp [chain, h, State.answerCodeword_eq]

/-- An answer leaves what a command can see as it was. -/
theorem sameConfig_answer (s : State) (a : Answer) : SameConfig s (s.answer a) := ⟨rfl, rfl, rfl, rfl⟩

/-- A builder and then SEND_TRI_STATE has the trace of SEND_TRI_STATE alone: a builder touches neither the trace nor the
configuration, and where it is refused SEND_TRI_STATE would be too. -/
theorem chain_sendTriState_trace {cw : Codeword}
    (hfirst : exec first s = whenConstructed s (.next (s.answerCodeword cw))) :
    ∃ t u, chain first .sendTriState s = .next t ∧ exec (.sendTriState cw) s = .next u ∧ t.trace = u.trace := by
  by_cases h : s.life = .unconfigured
  · rw [whenConstructed_unconfigured _ h] at hfirst
    exact ⟨_, _, chain_fail hfirst (by simp), whenActive_unconfigured _ h, rfl⟩
  · rw [whenConstructed_of _ h] at hfirst
    obtain ⟨u, t, tr, -, hu, ht, ⟨hutr, httr⟩, -⟩ := (sameConfig_answer s _).exec (.sendTriState cw)
    exact ⟨t, u, (chain_codeword hfirst).trans ht, hu, httr.trans hutr.symm⟩

end

/-- Under this hardware's `Preserve` the builders always give a codeword (42_codeword_builder.md R105, R108). -/
theorem exists_buildTypeA (ga : BitVec 5) (ch : BitVec 3) (on : Bool) :
    ∃ cw, buildTypeA Config.outOfRangePolicy ga ch on = .ok cw := by
  obtain ⟨cw, h⟩ | ⟨hpolicy, -⟩ := buildTypeA_cases Config.outOfRangePolicy ga ch on
  · exact ⟨_, h⟩
  · cases hpolicy

theorem exists_buildTypeB (ad ch : BitVec 3) (on : Bool) :
    ∃ cw, buildTypeB Config.outOfRangePolicy ad ch on = .ok cw := by
  obtain ⟨cw, h⟩ | ⟨hpolicy, -⟩ := buildTypeB_cases Config.outOfRangePolicy ad ch on
  · exact ⟨_, h⟩
  · cases hpolicy

/-- Past the two checks of 43_transmitter.md R125, a scheme-A SWITCH is the transmission of its codeword. -/
theorem exec_switchA_eq {ga : BitVec 5} {galen : BitVec 8} {dev : BitVec 3} {on : Bool} {cw : Codeword}
    (hlen : galen.toNat ≤ 5) (hdev : dev.toNat ≠ 0) (h : buildTypeA Config.outOfRangePolicy ga dev on = .ok cw)
    (s : State) :
    exec (if on then .switchOnA ga galen dev else .switchOffA ga galen dev) s = exec (.sendTriState cw) s := by
  have hswitch : exec (if on then .switchOnA ga galen dev else .switchOffA ga galen dev) s =
      switchA Config.outOfRangePolicy ga galen dev on s := by cases on <;> rfl
  have hshort : groupTooLong galen = false := decide_eq_false (Nat.not_lt.mpr hlen)
  have hsome : deviceIsNone dev = false := decide_eq_false hdev
  rw [hswitch, switchA, hshort, hsome, h]
  rfl

theorem exec_switchB_eq {ad ch : BitVec 3} {on : Bool} {cw : Codeword}
    (h : buildTypeB Config.outOfRangePolicy ad ch on = .ok cw) (s : State) :
    exec (if on then .switchOnB ad ch else .switchOffB ad ch) s = exec (.sendTriState cw) s := by
  have hswitch : exec (if on then .switchOnB ad ch else .switchOffB ad ch) s =
      switchB Config.outOfRangePolicy ad ch on s := by cases on <;> rfl
  rw [hswitch, switchB, h]
  rfl

theorem exec_buildTypeA_eq {ga : BitVec 5} {ch : BitVec 3} {on : Bool} {cw : Codeword}
    (h : buildTypeA Config.outOfRangePolicy ga ch on = .ok cw) (s : State) :
    exec (.buildTypeA ga ch on) s = whenConstructed s (.next (s.answerCodeword cw)) := by
  change execBuildTypeA ga ch on s = _
  rw [execBuildTypeA, h, withCodeword]

theorem exec_buildTypeB_eq {ad ch : BitVec 3} {on : Bool} {cw : Codeword}
    (h : buildTypeB Config.outOfRangePolicy ad ch on = .ok cw) (s : State) :
    exec (.buildTypeB ad ch on) s = whenConstructed s (.next (s.answerCodeword cw)) := by
  change execBuildTypeB ad ch on s = _
  rw [execBuildTypeB, h, withCodeword]

/-- Settles O54: a SWITCH past its own checks is SEND_TRI_STATE on the codeword the builder returns. -/
theorem codePseudoCommandsTransmitLikeTheSwitches : Obligations.CodePseudoCommandsTransmitLikeTheSwitches := by
  refine fun s on => ⟨fun ad ch => ?_, fun ga galen dev hlen hdev => ?_⟩
  · obtain ⟨cw, h⟩ := exists_buildTypeB ad ch on
    obtain ⟨t, u, ht, hu, htrace⟩ := chain_sendTriState_trace (exec_buildTypeB_eq h s)
    have hswitch := (exec_switchB_eq h s).trans hu
    exact ⟨t, u, ht, hswitch, htrace, hswitch⟩
  · obtain ⟨cw, h⟩ := exists_buildTypeA ga dev on
    obtain ⟨t, u, ht, hu, htrace⟩ := chain_sendTriState_trace (exec_buildTypeA_eq h s)
    exact ⟨t, u, ht, (exec_switchA_eq hlen hdev h s).trans hu, htrace⟩

end Sys2Proof.Machine

/-! SUPPORT and CERTIFICATE. The Waveform Encoder (41_waveform.md): each of its commands is one waveform performed once on
an active line, so what it emits, when it is refused and what it depends on are said once, of the waveform. -/

namespace Sys2Proof.Machine

/-! ### A command of 41_waveform.md is its waveform, performed once -/

/-- The waveform of a command of 41_waveform.md (R85 to R91, in the waveform functions of R93). No other command has
one. -/
def waveformOf (pr : Protocol) : Instr → List Transmit
  | .transmit hu lu => [⟨asU32 hu, asU32 lu⟩]
  | .sendSync => waveSync pr
  | .sendBit0 => waveBit0 pr
  | .sendBit1 => waveBit1 pr
  | .sendTri0 => waveTri0
  | .sendTri1 => waveTri1
  | .sendTriF => waveTriF
  | .sendTriState _ | .sendBin _ | .switchOnA _ _ _ | .switchOffA _ _ _ | .switchOnB _ _ | .switchOffB _ _
  | .setProtocol _ | .setPulseLength _ | .setRepeatCount _ | .getProtocol | .getPulseLength | .getRepeatCount
  | .dispose | .buildTypeA _ _ _ | .buildTypeB _ _ _ | .decToBin _ _ => []

theorem exec_waveform {i : Instr} (hi : isWaveform i = true) (s : State) :
    exec i s = whenActive s (perform (.waveform (waveformOf s.protocol i)) 1 s) := by
  cases i with
  | transmit _ _ | sendSync | sendBit0 | sendBit1 | sendTri0 | sendTri1 | sendTriF => rfl
  | sendTriState _ | sendBin _ | switchOnA _ _ _ | switchOffA _ _ _ | switchOnB _ _ | switchOffB _ _
  | setProtocol _ | setPulseLength _ | setRepeatCount _ | getProtocol | getPulseLength | getRepeatCount
  | dispose | buildTypeA _ _ _ | buildTypeB _ _ _ | decToBin _ _ => cases hi

/-! ### The lifecycle check of the line-driving commands -/

/-- Every line-driving command begins with the check of an active line (41_waveform.md R81; 43_transmitter.md R136). -/
theorem exists_exec_eq_whenActive {i : Instr} (hi : i.drivesLine = true) :
    ∃ k : State → Result, ∀ s, exec i s = whenActive s (k s) := by
  cases i with
  | transmit _ _ | sendSync | sendBit0 | sendBit1 | sendTri0 | sendTri1 | sendTriF | sendTriState _ | sendBin _
  | switchOnA _ _ _ | switchOffA _ _ _ | switchOnB _ _ | switchOffB _ _ => exact ⟨_, fun _ => rfl⟩
  | setProtocol _ | setPulseLength _ | setRepeatCount _ | getProtocol | getPulseLength | getRepeatCount | dispose
  | buildTypeA _ _ _ | buildTypeB _ _ _ | decToBin _ _ => cases hi

theorem needsLine_of_drivesLine {i : Instr} (hi : i.drivesLine = true) : NeedsLine i := by
  obtain ⟨k, hk⟩ := exists_exec_eq_whenActive hi
  refine ⟨fun s hl => ?_, fun s hl => ?_⟩
  · rw [RefusedFor, hk, whenActive_unconfigured _ hl, State.refuse_after]
  · rw [RefusedFor, hk, whenActive_disposed _ hl, State.refuse_after]

/-! ### Dependence on the protocol and the pulse length -/

/-- From `s₁` and from `s₂` the results append the same effects and give the same answer, and the states change in
nothing else but OUT. -/
def AppendAlike (s₁ s₂ : State) (r₁ r₂ : Result) : Prop :=
  ∃ (tr : List Effect) (a : Answer) (l₁ l₂ : Level), r₁ = .next (s₁.after tr l₁ a) ∧ r₂ = .next (s₂.after tr l₂ a)

section

variable {s₁ s₂ : State}

theorem appendAlike_refuse (why : RefuseReason) : AppendAlike s₁ s₂ (.next (s₁.refuse why)) (.next (s₂.refuse why)) :=
  ⟨[], .failed (.refused why), s₁.out, s₂.out, by rw [State.refuse_after], by rw [State.refuse_after]⟩

theorem appendAlike_whenActive (hlife : s₁.life = s₂.life) {k₁ k₂ : Result} (hk : AppendAlike s₁ s₂ k₁ k₂) :
    AppendAlike s₁ s₂ (whenActive s₁ k₁) (whenActive s₂ k₂) := by
  cases hl : s₂.life with
  | unconfigured =>
    rw [whenActive_unconfigured _ (hlife.trans hl), whenActive_unconfigured _ hl]
    exact appendAlike_refuse _
  | active => rwa [whenActive_active _ (hlife.trans hl), whenActive_active _ hl]
  | disposed =>
    rw [whenActive_disposed _ (hlife.trans hl), whenActive_disposed _ hl]
    exact appendAlike_refuse _

/-- A job of a fixed number of passes reads the protocol and the pulse length only. -/
theorem appendAlike_perform (hprotocol : s₁.protocol = s₂.protocol) (hpulse : s₁.pulse = s₂.pulse) (j : Job) (n : Nat) :
    AppendAlike s₁ s₂ (perform j n s₁) (perform j n s₂) := by
  have hrange : s₁.delaysInRange j n = s₂.delaysInRange j n := by simp [State.delaysInRange, hprotocol, hpulse]
  obtain ⟨hd, hp⟩ | ⟨hd, hp⟩ := perform_cases j n s₂
  · rw [hp, perform_admitted _ _ _ (hrange.trans hd), hprotocol, hpulse, State.emitAll_answerOk, State.emitAll_answerOk]
    exact ⟨_, _, _, _, rfl, rfl⟩
  · rw [hp, perform_out_of_range _ _ _ (hrange.trans hd)]
    exact appendAlike_refuse _

end

/-- Settles O34: a waveform command performs its waveform once, whatever `cfg.repeat` is. -/
theorem waveformTraceIsAFunctionOfProtocolAndPulse : Obligations.WaveformTraceIsAFunctionOfProtocolAndPulse := by
  intro i s₁ s₂ hi hlife hprotocol hpulse
  rw [exec_waveform hi, exec_waveform hi, hprotocol]
  exact appendAlike_whenActive hlife (appendAlike_perform hprotocol hpulse _ _)

/-! ### What a waveform command answers on an active line -/

section

variable {i : Instr} {s : State} (hi : isWaveform i = true) (hactive : s.life = .active)

include hi hactive

theorem exec_waveform_emits {w : List Transmit} (hw : waveformOf s.protocol i = w) (hne : w ≠ [])
    (h : ∀ t ∈ w, ¬ s.delayBad t.high ∧ ¬ s.delayBad t.low) :
    exec i s = .next (s.after (waveEffects s.pulse w) .low .done) := by
  rw [exec_waveform hi, whenActive_active _ hactive, hw, perform_waveform hne h]

theorem exec_waveform_refused {t : Transmit} (ht : t ∈ waveformOf s.protocol i)
    (h : s.delayBad t.high ∨ s.delayBad t.low) : RefusedFor .delayOutOfRange i s := by
  rw [RefusedFor, exec_waveform hi, whenActive_active _ hactive, perform_waveform_refused ⟨t, ht, h⟩]

end

/-- Settles O30: the waveform is the one `T` call of the operands. -/
theorem transmitEmitsOneTransmit : Obligations.TransmitEmitsOneTransmit := by
  intro hu lu
  refine ⟨decodeOfEncodeIsTheInstruction (.transmit hu lu) rfl, needsLine_of_drivesLine rfl, fun s hactive => ⟨?_, ?_⟩⟩
  · intro hhigh hlow
    exact exec_waveform_emits rfl hactive rfl (List.cons_ne_nil _ _) (List.forall_mem_singleton.mpr ⟨hhigh, hlow⟩)
  · intro hbad
    exact exec_waveform_refused rfl hactive (List.mem_singleton_self _) hbad

/-! ### The waveforms of the table -/

/-- No part of a waveform is longer than `n` units, and one of its `T` calls has parts of one and of `n` units. All
waveforms of R93 are of this kind, and their delay check (R83) asks for one unit and for `n`. -/
def LongestPart (w : List Transmit) (n : Nat) : Prop :=
  (∀ t ∈ w, t.high ≤ n ∧ t.low ≤ n) ∧ (⟨1, n⟩ ∈ w ∨ ⟨n, 1⟩ ∈ w)

theorem longestPart_waveSync (pr : Protocol) : LongestPart (waveSync pr) (syncLow pr) := by
  unfold LongestPart; cases pr <;> decide

theorem longestPart_waveBin (pr : Protocol) {x : Symbol} (hx : isBit x = true) :
    LongestPart (waveBin pr x) (bitLong pr) := by
  unfold LongestPart
  cases x with
  | zero | one => cases pr <;> decide
  | floating | term => cases hx

theorem longestPart_waveTri {x : Symbol} (hx : x ≠ .term) : LongestPart (waveTri x) 3 := by
  unfold LongestPart
  cases x with
  | zero | one | floating => decide
  | term => exact absurd rfl hx

section

variable {i : Instr} {s : State} {w : List Transmit} {n : Nat} (hw : LongestPart w n) (hi : isWaveform i = true)
  (hactive : s.life = .active) (hwave : waveformOf s.protocol i = w)

include hw hi hactive hwave

/-- A waveform whose longest part is in range is emitted. -/
theorem LongestPart.emits {p : Nat} {tr : List Effect} (hp : s.pulse.toInt = p) (h : ¬ s.delayBad n)
    (htr : waveEffects s.pulse w = tr) : exec i s = .next (s.after tr .low .done) := by
  obtain ⟨hshort, hcall⟩ := hw
  have hne : w ≠ [] := hcall.elim List.ne_nil_of_mem List.ne_nil_of_mem
  refine htr ▸ exec_waveform_emits hi hactive hwave hne fun t ht => ?_
  exact ⟨State.delayBad_mono hp (hshort t ht).1 h, State.delayBad_mono hp (hshort t ht).2 h⟩

/-- A waveform is refused when one unit or its longest part is out of range. -/
theorem LongestPart.refused (h : s.delayBad 1 ∨ s.delayBad n) : RefusedFor .delayOutOfRange i s := by
  subst hwave
  obtain ⟨-, ht | ht⟩ := hw
  · exact exec_waveform_refused hi hactive ht h
  · exact exec_waveform_refused hi hactive ht h.symm

end

/-- Settles O31, from the sync's longest part. -/
theorem sendSyncEmitsTheSync : Obligations.SendSyncEmitsTheSync := by
  refine ⟨decodeOfEncodeIsTheInstruction .sendSync rfl, needsLine_of_drivesLine rfl, fun s hactive => ⟨?_, ?_⟩⟩
  · intro p hp hrange
    exact (longestPart_waveSync _).emits rfl hactive rfl hp hrange (waveSync_effects hp _)
  · exact (longestPart_waveSync _).refused rfl hactive rfl

/-- Settles O32, from the longest part of a bit. -/
theorem sendBitsEmitTheProtocolRatios : Obligations.SendBitsEmitTheProtocolRatios := by
  refine ⟨decodeOfEncodeIsTheInstruction .sendBit0 rfl, decodeOfEncodeIsTheInstruction .sendBit1 rfl,
    needsLine_of_drivesLine rfl, needsLine_of_drivesLine rfl, fun s hactive => ?_⟩
  have hzero := longestPart_waveBin s.protocol (x := .zero) rfl
  have hone := longestPart_waveBin s.protocol (x := .one) rfl
  refine ⟨fun p hp hrange => ⟨?_, ?_⟩, fun hbad => ⟨?_, ?_⟩⟩
  · exact hzero.emits rfl hactive rfl hp hrange (waveBin_effects hp _ _)
  · exact hone.emits rfl hactive rfl hp hrange (waveBin_effects hp _ _)
  · exact hzero.refused rfl hactive rfl hbad
  · exact hone.refused rfl hactive rfl hbad

/-- Settles O33, from the longest part of a tri-state symbol, which is the same under both protocols. -/
theorem sendTriEmitsTheSameRatiosUnderBothProtocols : Obligations.SendTriEmitsTheSameRatiosUnderBothProtocols := by
  refine ⟨decodeOfEncodeIsTheInstruction .sendTri0 rfl, decodeOfEncodeIsTheInstruction .sendTri1 rfl,
    decodeOfEncodeIsTheInstruction .sendTriF rfl, needsLine_of_drivesLine rfl, needsLine_of_drivesLine rfl,
    needsLine_of_drivesLine rfl, fun s hactive => ?_⟩
  have hzero : LongestPart (waveTri .zero) 3 := longestPart_waveTri (by simp)
  have hone : LongestPart (waveTri .one) 3 := longestPart_waveTri (by simp)
  have hfloating : LongestPart (waveTri .floating) 3 := longestPart_waveTri (by simp)
  refine ⟨fun p hp hrange => ⟨?_, ?_, ?_⟩, fun hbad => ⟨?_, ?_, ?_⟩⟩
  · exact hzero.emits rfl hactive rfl hp hrange (waveTri_effects hp _)
  · exact hone.emits rfl hactive rfl hp hrange (waveTri_effects hp _)
  · exact hfloating.emits rfl hactive rfl hp hrange (waveTri_effects hp _)
  · exact hzero.refused rfl hactive rfl hbad
  · exact hone.refused rfl hactive rfl hbad
  · exact hfloating.refused rfl hactive rfl hbad

/-! ### Lengths -/

/-- Every `T` call makes two line writes (41_waveform.md R82). -/
theorem lineWrites_waveEffects (pulse : Word) (w : List Transmit) :
    lineWrites (waveEffects pulse w) = 2 * w.length := by
  induction w with
  | nil => rfl
  | cons t w ih =>
    have hcall : lineWrites (waveEffects pulse (t :: w)) = 2 + lineWrites (waveEffects pulse w) :=
      List.countP_append
    rw [hcall, ih, List.length_cons]
    omega

/-- Every `T` call requests two delays (41_waveform.md R82). -/
theorem delayRequests_waveEffects (pulse : Word) (w : List Transmit) :
    delayRequests (waveEffects pulse w) = 2 * w.length := by
  induction w with
  | nil => rfl
  | cons t w ih =>
    have hcall : delayRequests (waveEffects pulse (t :: w)) = 2 + delayRequests (waveEffects pulse w) :=
      List.countP_append
    rw [hcall, ih, List.length_cons]
    omega

/-- Settles O37: two writes and two delays for each `T` call, and the units row by row. -/
theorem waveformLengths : Obligations.WaveformLengths := by
  intro pr pulse w units writes hrow
  rw [lineWrites_waveEffects, delayRequests_waveEffects]
  simp only [List.mem_cons, Prod.mk.injEq, List.not_mem_nil, or_false] at hrow
  rcases hrow with ⟨rfl, rfl, rfl⟩ | ⟨rfl, rfl, rfl⟩ | ⟨rfl, rfl, rfl⟩ | ⟨rfl, rfl, rfl⟩ | ⟨rfl, rfl, rfl⟩ | ⟨rfl, rfl, rfl⟩
  · cases pr <;> decide
  · cases pr <;> decide
  · cases pr <;> decide
  · decide
  · decide
  · decide

end Sys2Proof.Machine

/-! SUPPORT and CERTIFICATE. The CodeWord Builder (42_codeword_builder.md): its tables are positions of a single `0`, so
each builder gives the twelve symbols of the claims' vocabulary in range and its policy's answer out of range; the
statements about the two commands and about the codewords are read off these. -/

namespace Sys2Proof.Machine

/-! ### The tables -/

/-- Entry `c - 1` of `TABLE_A` has its single `0` at position `c - 1` (42_codeword_builder.md R102). -/
theorem chanA_eq {ch : BitVec 3} (h : 1 ≤ ch.toNat ∧ ch.toNat ≤ 5) :
    chanA ch = (List.range 5).map fun i => if i + 1 = ch.toNat then Symbol.zero else .floating := by
  revert ch; decide

/-- Entry `k` of `TABLE_B` has its single `0` at position `k - 1` (42_codeword_builder.md R106). -/
theorem codeB_eq {k : BitVec 3} (h : 1 ≤ k.toNat ∧ k.toNat ≤ 4) :
    codeB k = (List.range 4).map fun i => if i + 1 = k.toNat then Symbol.zero else .floating := by
  revert k; decide

/-! ### The builders in and out of range -/

theorem buildTypeA_inRange {ch : BitVec 3} (h : 1 ≤ ch.toNat ∧ ch.toNat ≤ 5) (policy : OutOfRangePolicy)
    (ga : BitVec 5) (on : Bool) : buildTypeA policy ga ch on = .ok (symbolsA ga ch on ++ [.term]) := by
  have hin : inRangeA ch = true := decide_eq_true h
  rw [buildTypeA, if_pos hin, chanA_eq h]
  rfl

theorem buildTypeA_outOfRange {ch : BitVec 3} (h : ch.toNat = 0 ∨ 5 < ch.toNat) (policy : OutOfRangePolicy)
    (ga : BitVec 5) (on : Bool) : buildTypeA policy ga ch on = outOfRange policy := by
  have hout : ¬ inRangeA ch = true := by
    rw [inRangeA, decide_eq_true_iff]; omega
  rw [buildTypeA, if_neg hout]

theorem buildTypeB_inRange {ad ch : BitVec 3} (had : 1 ≤ ad.toNat ∧ ad.toNat ≤ 4) (hch : 1 ≤ ch.toNat ∧ ch.toNat ≤ 4)
    (policy : OutOfRangePolicy) (on : Bool) : buildTypeB policy ad ch on = .ok (symbolsB ad ch on ++ [.term]) := by
  have hin : (inRangeB ad && inRangeB ch) = true := Bool.and_eq_true_iff.mpr ⟨decide_eq_true had, decide_eq_true hch⟩
  rw [buildTypeB, if_pos hin, codeB_eq had, codeB_eq hch]
  rfl

theorem buildTypeB_outOfRange {ad ch : BitVec 3}
    (h : ad.toNat = 0 ∨ 4 < ad.toNat ∨ ch.toNat = 0 ∨ 4 < ch.toNat) (policy : OutOfRangePolicy) (on : Bool) :
    buildTypeB policy ad ch on = outOfRange policy := by
  have hout : ¬ (inRangeB ad && inRangeB ch) = true := by
    rw [Bool.and_eq_true, inRangeB, inRangeB, decide_eq_true_iff, decide_eq_true_iff]; omega
  rw [buildTypeB, if_neg hout]

/-! ### The commands -/

section

variable {i : Instr} {cw : Codeword}
  (h : ∀ s, exec i s = whenConstructed s (.next (s.answerCodeword cw)))

include h

/-- A command that answers a codeword in every constructed state needs a constructed block. -/
theorem needsConstruction_of_answerCodeword : NeedsConstruction i := fun s hs => by
  rw [RefusedFor, h, whenConstructed_unconfigured _ hs, State.refuse_after]

theorem exec_after_of_answerCodeword {s : State} (hs : s.life ≠ .unconfigured) :
    exec i s = .next (s.after [] s.out { status := .ok, result := 0#32, rcw := cw }) := by
  rw [h, whenConstructed_of _ hs, State.answerCodeword_eq, State.after_nil]

end

/-- `ST` is bit 8 of `A1` (30_encoding.md R56). -/
theorem packChannel_eq (ch : BitVec 3) (st : Bool) :
    packChannel ch st = ch.setWidth 32 ||| (if st then 0x100#32 else 0#32) := by
  cases st <;> rfl

/-- Settles O38, from what the builder gives in and out of range. -/
theorem buildTypeAReturnsTheCodeword : Obligations.BuildTypeAReturnsTheCodeword := by
  intro ga ch st
  obtain ⟨cw, hcw⟩ := exists_buildTypeA ga ch st
  refine ⟨?_, needsConstruction_of_answerCodeword (exec_buildTypeA_eq hcw),
    fun hin => ⟨fun s hs => ?_, fun policy => ?_⟩, fun hout => ⟨fun s hs => ?_, ?_⟩⟩
  · exact packChannel_eq ch st ▸ decodeOfEncodeIsTheInstruction (.buildTypeA ga ch st) rfl
  · exact exec_after_of_answerCodeword (exec_buildTypeA_eq (buildTypeA_inRange hin _ ga st)) hs
  · exact buildTypeA_inRange hin policy ga st
  · exact exec_after_of_answerCodeword (exec_buildTypeA_eq (buildTypeA_outOfRange hout .preserve ga st)) hs
  · exact buildTypeA_outOfRange hout .reject ga st

/-- Settles O39, from what the builder gives in and out of range. -/
theorem buildTypeBReturnsTheCodeword : Obligations.BuildTypeBReturnsTheCodeword := by
  intro ad ch st
  obtain ⟨cw, hcw⟩ := exists_buildTypeB ad ch st
  refine ⟨?_, needsConstruction_of_answerCodeword (exec_buildTypeB_eq hcw),
    fun ⟨hadMin, hadMax, hch⟩ => ⟨fun s hs => ?_, fun policy => ?_⟩, fun hout => ⟨fun s hs => ?_, ?_⟩⟩
  · exact packChannel_eq ch st ▸ decodeOfEncodeIsTheInstruction (.buildTypeB ad ch st) rfl
  · exact exec_after_of_answerCodeword (exec_buildTypeB_eq (buildTypeB_inRange ⟨hadMin, hadMax⟩ hch _ st)) hs
  · exact buildTypeB_inRange ⟨hadMin, hadMax⟩ hch policy st
  · exact exec_after_of_answerCodeword (exec_buildTypeB_eq (buildTypeB_outOfRange hout .preserve st)) hs
  · exact buildTypeB_outOfRange hout .reject st

/-! ### The shape of a codeword -/

theorem symbolsA_zero_or_floating {ga : BitVec 5} {ch : BitVec 3} {on : Bool} :
    ∀ x ∈ symbolsA ga ch on, x = .zero ∨ x = .floating := by
  intro x hx
  simp only [symbolsA, List.mem_append, List.mem_map] at hx
  obtain (⟨i, -, rfl⟩ | ⟨i, -, rfl⟩) | hstatus := hx
  · exact ite_eq_or_eq ..
  · exact ite_eq_or_eq ..
  · cases on
    · simpa [or_comm] using hstatus
    · simpa using hstatus

theorem symbolsB_zero_or_floating {ad ch : BitVec 3} {on : Bool} :
    ∀ x ∈ symbolsB ad ch on, x = .zero ∨ x = .floating := by
  intro x hx
  simp only [symbolsB, List.mem_append, List.mem_map] at hx
  obtain ((⟨i, -, rfl⟩ | ⟨i, -, rfl⟩) | hfixed) | hstatus := hx
  · exact ite_eq_or_eq ..
  · exact ite_eq_or_eq ..
  · exact .inr (by simpa using hfixed)
  · cases on
    · exact .inl (by simpa using hstatus)
    · exact .inr (by simpa using hstatus)

theorem symbolsA_length (ga : BitVec 5) (ch : BitVec 3) (on : Bool) : (symbolsA ga ch on).length = 12 := by
  cases on <;> rfl

theorem symbolsB_length (ad ch : BitVec 3) (on : Bool) : (symbolsB ad ch on).length = 12 := by
  cases on <;> rfl

/-- Twelve symbols `0` or `F` and a terminator have the shape of 42_codeword_builder.md R100. -/
theorem terminated_shape {symbols : Codeword} (hlen : symbols.length = 12)
    (hsymbols : ∀ x ∈ symbols, x = .zero ∨ x = .floating) :
    (symbols ++ [Symbol.term]).length = 13 ∧ (symbols ++ [Symbol.term]).getLast? = some .term ∧
      (∀ x ∈ (symbols ++ [Symbol.term]).dropLast, x = .zero ∨ x = .floating) ∧
      Symbol.one ∉ symbols ++ [Symbol.term] := by
  have hone : Symbol.one ∉ symbols := fun h => by simpa using hsymbols _ h
  refine ⟨by simp [hlen], List.getLast?_concat, ?_, by simp [hone]⟩
  rwa [List.dropLast_concat]

/-- Settles O40: both builders give twelve symbols `0` or `F` before the terminator. -/
theorem builtCodewordsAreTwelveSymbolsAndATerminator : Obligations.BuiltCodewordsAreTwelveSymbolsAndATerminator := by
  rintro policy cw (⟨ga, ch, st, hmin, hmax, hcw⟩ | ⟨ad, ch, st, hadMin, hadMax, hmin, hmax, hcw⟩)
  · rw [buildTypeA_inRange ⟨hmin, hmax⟩] at hcw
    cases hcw
    exact terminated_shape (symbolsA_length ga ch st) symbolsA_zero_or_floating
  · rw [buildTypeB_inRange ⟨hadMin, hadMax⟩ ⟨hmin, hmax⟩] at hcw
    cases hcw
    exact terminated_shape (symbolsB_length ad ch st) symbolsB_zero_or_floating

/-- Settles O41: the status stands last in the symbols of both schemes, and nowhere else. -/
theorem statusTouchesOnlyItsOwnSymbols : Obligations.StatusTouchesOnlyItsOwnSymbols := by
  refine fun policy => ⟨fun ga ch hmin hmax => ⟨chanA ch, ?_, fun st => ?_⟩, fun ad ch st hadMin hadMax hmin hmax => ?_⟩
  · rw [chanA_eq ⟨hmin, hmax⟩, List.length_map, List.length_range]
  · rw [buildTypeA_inRange ⟨hmin, hmax⟩, chanA_eq ⟨hmin, hmax⟩, symbolsA]
  · rw [buildTypeB_inRange ⟨hadMin, hadMax⟩ ⟨hmin, hmax⟩, symbolsB]
    cases st <;> rfl

end Sys2Proof.Machine

/-! SUPPORT and CERTIFICATE. The configuration commands, the accessors and the disposal of the line (43_transmitter.md
R115 to R122, R135, R136): every command that neither drives the line nor disposes it is one update behind the check of
a constructed block, and that update does not read the lifecycle. -/

namespace Sys2Proof.Machine

/-! ### The commands that leave the line alone -/

/-- An update that does not read the lifecycle and leaves it as it was. -/
def IgnoresLife (f : State → State) : Prop :=
  ∀ (s : State) (l : Life), f { s with life := l } = { f s with life := l }

theorem State.assignProtocol_ignoresLife (policy : RebaselinePolicy) (pr : Protocol) :
    IgnoresLife (State.assignProtocol policy pr) := by
  intro s l
  rcases le_or_gt (asI32 s.pulse) 0 with hp | hp
  · rw [State.assignProtocol_nonpos s policy pr hp]
    exact State.assignProtocol_nonpos _ policy pr hp
  · rw [State.assignProtocol_pos s policy pr hp]
    exact State.assignProtocol_pos _ policy pr hp

theorem IgnoresLife.answer {f : State → State} (hf : IgnoresLife f) (a : Answer) :
    IgnoresLife fun s => (f s).answer a := fun s l => congrArg (State.answer · a) (hf s l)

/-- Every command but the line-driving ones and DISPOSE is an update behind the check of a constructed block
(60_exceptions.md R158). -/
theorem exists_exec_eq_whenConstructed {i : Instr} (hi : i.drivesLine = false) (hdispose : i ≠ .dispose) :
    ∃ f : State → State, (∀ s, exec i s = whenConstructed s (.next (f s))) ∧ IgnoresLife f := by
  cases i with
  | setProtocol pr => exact ⟨_, fun _ => rfl, (State.assignProtocol_ignoresLife _ pr).answer _⟩
  | setPulseLength val => exact ⟨_, fun _ => rfl, fun _ _ => rfl⟩
  | setRepeatCount val =>
    rcases lt_or_ge (asI32 val) 0 with hval | hval
    · exact ⟨_, fun s => congrArg (whenConstructed s) (if_pos hval), fun _ _ => rfl⟩
    · exact ⟨_, fun s => congrArg (whenConstructed s) (if_neg (Int.not_lt.mpr hval)), fun _ _ => rfl⟩
  | getProtocol | getPulseLength | getRepeatCount => exact ⟨_, fun _ => rfl, fun _ _ => rfl⟩
  | dispose => exact absurd rfl hdispose
  | buildTypeA ga ch st =>
    obtain ⟨cw, h⟩ := exists_buildTypeA ga ch st
    exact ⟨_, exec_buildTypeA_eq h, fun _ _ => rfl⟩
  | buildTypeB ad ch st =>
    obtain ⟨cw, h⟩ := exists_buildTypeB ad ch st
    exact ⟨_, exec_buildTypeB_eq h, fun _ _ => rfl⟩
  | decToBin value bitlen =>
    by_cases hwide : bitlen.toNat < (digits value).length
    · exact ⟨_, fun s => congrArg (whenConstructed s) (if_pos hwide), fun _ _ => rfl⟩
    · exact ⟨_, fun s => congrArg (whenConstructed s) (if_neg hwide), fun _ _ => rfl⟩
  | transmit _ _ | sendSync | sendBit0 | sendBit1 | sendTri0 | sendTri1 | sendTriF | sendTriState _ | sendBin _
  | switchOnA _ _ _ | switchOffA _ _ _ | switchOnB _ _ | switchOffB _ _ => cases hi

theorem needsConstruction_of_not_drivesLine {i : Instr} (hi : i.drivesLine = false) (hdispose : i ≠ .dispose) :
    NeedsConstruction i := fun s hs => by
  obtain ⟨f, hf, -⟩ := exists_exec_eq_whenConstructed hi hdispose
  rw [RefusedFor, hf, whenConstructed_unconfigured _ hs, State.refuse_after]

/-! ### The configuration registers -/

section

variable {s : State} (hs : s.life ≠ .unconfigured)

include hs

theorem exec_setProtocol (pr : Protocol) :
    exec (.setProtocol pr) s = .next (s.assignProtocol Config.rebaselinePolicy pr).answerOk :=
  whenConstructed_of _ hs

theorem exec_setPulseLength (val : Word) :
    exec (.setPulseLength val) s = .next { s.after [] s.out .done with pulse := val } := by
  refine (whenConstructed_of _ hs).trans ?_
  rw [State.answerOk_after]
  rfl

theorem exec_setRepeatCount_nonneg {val : Word} (hval : 0 ≤ val.toInt) :
    exec (.setRepeatCount val) s = .next { s.after [] s.out .done with repeatCount := val } := by
  refine ((whenConstructed_of _ hs).trans (if_neg (Int.not_lt.mpr hval))).trans ?_
  rw [State.answerOk_after]
  rfl

theorem exec_setRepeatCount_neg {val : Word} (hval : val.toInt < 0) :
    exec (.setRepeatCount val) s = .next (s.after [] s.out (.failed .invalidArgument)) := by
  rw [← State.fail_after]
  exact (whenConstructed_of _ hs).trans (if_pos hval)

/-- A command that reads a register: it answers the value and changes nothing. -/
theorem exec_after_of_answerValue {i : Instr} {v : Word}
    (h : exec i s = whenConstructed s (.next (s.answerValue v))) :
    exec i s = .next (s.after [] s.out { status := .ok, result := v, rcw := [] }) := by
  rw [h, whenConstructed_of _ hs, State.answerValue_eq, State.after_nil]

end

/-- Settles O23, by the sign of the pulse length held before the write. -/
theorem setProtocolRebaselinesANonPositivePulse : Obligations.SetProtocolRebaselinesANonPositivePulse := by
  refine ⟨decodeOfEncodeIsTheInstruction (.setProtocol .p1) rfl, decodeOfEncodeIsTheInstruction (.setProtocol .p2) rfl,
    fun pr => ⟨needsConstruction_of_not_drivesLine rfl nofun, fun s hs => ?_⟩⟩
  rw [exec_setProtocol hs]
  rcases le_or_gt s.pulse.toInt 0 with hp | hp
  · rw [State.assignProtocol_nonpos s _ pr hp, State.answerOk_after, if_pos hp]
    cases pr <;> rfl
  · rw [State.assignProtocol_pos s _ pr hp, State.answerOk_after, if_neg (Int.not_le.mpr hp)]
    rfl

/-- Settles O24: the value is stored as it is. -/
theorem setPulseLengthStoresAnyValue : Obligations.SetPulseLengthStoresAnyValue := fun val =>
  ⟨decodeOfEncodeIsTheInstruction (.setPulseLength val) rfl, needsConstruction_of_not_drivesLine rfl nofun,
    fun _ hs => exec_setPulseLength hs val⟩

/-- Settles O25, by the sign of the value. -/
theorem setRepeatCountRejectsNegativeValues : Obligations.SetRepeatCountRejectsNegativeValues := fun val =>
  ⟨decodeOfEncodeIsTheInstruction (.setRepeatCount val) rfl, needsConstruction_of_not_drivesLine rfl nofun,
    fun _ hs => ⟨exec_setRepeatCount_nonneg hs, exec_setRepeatCount_neg hs⟩⟩

/-- The word GET_PROTOCOL returns (43_transmitter.md R120). -/
theorem protocol_code_setWidth (pr : Protocol) : pr.code.setWidth 32 = if pr = .p1 then 0#32 else 1#32 := by
  cases pr <;> rfl

/-- Settles O26, register by register. -/
theorem accessorsReturnTheRegisters : Obligations.AccessorsReturnTheRegisters := by
  refine ⟨⟨decodeOfEncodeIsTheInstruction .getProtocol rfl, decodeOfEncodeIsTheInstruction .getPulseLength rfl,
      decodeOfEncodeIsTheInstruction .getRepeatCount rfl⟩,
    ⟨needsConstruction_of_not_drivesLine rfl nofun, needsConstruction_of_not_drivesLine rfl nofun,
      needsConstruction_of_not_drivesLine rfl nofun⟩, fun s hs => ⟨?_, ?_, ?_⟩⟩
  · rw [← protocol_code_setWidth]
    exact exec_after_of_answerValue hs rfl
  · exact exec_after_of_answerValue hs rfl
  · exact exec_after_of_answerValue hs rfl

/-! ### The disposal of the line -/

theorem exec_dispose_unconfigured {s : State} (h : s.life = .unconfigured) :
    exec .dispose s = .next (s.refuse .notConstructed) := by
  simp [exec, execDispose, h]

theorem exec_dispose_active {s : State} (h : s.life = .active) :
    exec .dispose s = .next s.releaseLine.answerOk := by
  simp [exec, execDispose, h]

theorem exec_dispose_disposed {s : State} (h : s.life = .disposed) :
    exec .dispose s = .next (s.after [] s.out .done) := by
  simp [exec, execDispose, h, State.answerOk_after]

/-- Settles O29, by the lifecycle. -/
theorem disposeReleasesTheLineOnce : Obligations.DisposeReleasesTheLineOnce := by
  refine ⟨decodeOfEncodeIsTheInstruction .dispose rfl, fun s hs => ?_, fun s hs => ?_, fun s hs => ?_⟩
  · rw [RefusedFor, exec_dispose_unconfigured hs, State.refuse_after]
  · exact ⟨_, _, exec_dispose_active hs⟩
  · exact exec_dispose_disposed hs

/-- Settles O4: the line-driving commands check for an active line, and the others ask only for a constructed block. -/
theorem disposedBlockRefusesOnlyLineCommands : Obligations.DisposedBlockRefusesOnlyLineCommands := by
  refine ⟨fun i s hi hs => (needsLine_of_drivesLine hi).2 s hs, fun i s hi hdispose => ?_,
    fun _ => exec_dispose_disposed⟩
  obtain ⟨f, hf, hlife⟩ := exists_exec_eq_whenConstructed hi hdispose
  refine ⟨f s, ?_, ?_⟩
  · rw [hf, whenConstructed_of _ (by simp), hlife]
  · rw [hf, whenConstructed_of _ (by simp), hlife]

end Sys2Proof.Machine

/-! SUPPORT and CERTIFICATE. The Transmitter (43_transmitter.md R123 to R134, R137): SEND_TRI_STATE and SEND_BIN
perform their job on an active line, a SWITCH command past its checks is SEND_TRI_STATE on the codeword its builder
gives, and the passes are counted by their syncs and by their `T` calls. -/

namespace Sys2Proof.Machine

/-! ### A codeword transmission on an active line -/

section

variable {s : State} {n : Nat} (hactive : s.life = .active) (hn : s.repeatCount.toInt = n)

include hactive hn

theorem exec_sendTriState_emits {p : Nat} (cw : Codeword)
    (h : n = 0 ∨ s.pulse.toInt = p ∧ ¬ s.delayBad (syncLow s.protocol)) :
    exec (.sendTriState cw) s = .next (s.after
      (passesOf n ((cw.takeWhile fun x => x != .term).flatMap (triSegments p)) s.protocol p)
      (levelAfterPasses n s.out) .done) := by
  rw [exec_sendTriState cw hactive, State.passes_eq hn, perform_triState cw h]

/-- A codeword of the terminator alone: every pass is the sync (43_transmitter.md R130, R134). -/
theorem exec_sendTriState_term {p : Nat} (h : n = 0 ∨ s.pulse.toInt = p ∧ ¬ s.delayBad (syncLow s.protocol)) :
    exec (.sendTriState [.term]) s =
      .next (s.after (passesOf n [] s.protocol p) (levelAfterPasses n s.out) .done) :=
  exec_sendTriState_emits hactive hn [.term] h

theorem exec_sendBin_emits {p : Nat} (cw : Codeword)
    (h : n = 0 ∨ s.pulse.toInt = p ∧ ¬ s.delayBad (syncLow s.protocol)) :
    exec (.sendBin cw) s = .next (s.after (passesOf n (cw.flatMap (bitSegments s.protocol p)) s.protocol p)
      (levelAfterPasses n s.out) .done) := by
  rw [exec_sendBin cw hactive, State.passes_eq hn, perform_binary cw h]

theorem exec_sendTriState_refused (cw : Codeword) (hn0 : n ≠ 0)
    (h : s.delayBad 1 ∨ s.delayBad (syncLow s.protocol)) : RefusedFor .delayOutOfRange (.sendTriState cw) s := by
  rw [RefusedFor, exec_sendTriState cw hactive, State.passes_eq hn,
    perform_refused (passes_refused (triState_isPasses _ cw) hn0 h)]

theorem exec_sendBin_refused (cw : Codeword) (hn0 : n ≠ 0)
    (h : s.delayBad 1 ∨ s.delayBad (syncLow s.protocol)) : RefusedFor .delayOutOfRange (.sendBin cw) s := by
  rw [RefusedFor, exec_sendBin cw hactive, State.passes_eq hn,
    perform_refused (passes_refused (binary_isPasses _ cw) hn0 h)]

end

/-- Settles O42, from what the tri-state job performs. -/
theorem sendTriStateEmitsItsPasses : Obligations.SendTriStateEmitsItsPasses :=
  ⟨fun cw hlen => decodeOfEncodeIsTheInstruction (.sendTriState cw) (decide_eq_true hlen),
    fun cw => ⟨needsLine_of_drivesLine rfl, fun _ _ hactive hn =>
      ⟨fun _ => exec_sendTriState_emits hactive hn cw, exec_sendTriState_refused hactive hn cw⟩⟩⟩

/-- Settles O43, from what the binary job performs. -/
theorem sendBinEmitsItsPasses : Obligations.SendBinEmitsItsPasses :=
  ⟨fun cw hlen => decodeOfEncodeIsTheInstruction (.sendBin cw) (decide_eq_true hlen),
    fun pr cw => congrArg (binPass .wholeWord pr) (beforeTerm_eq cw),
    fun cw => ⟨needsLine_of_drivesLine rfl, fun _ _ hactive hn =>
      ⟨fun _ => exec_sendBin_emits hactive hn cw, exec_sendBin_refused hactive hn cw⟩⟩⟩

/-! ### The SWITCH commands as transmissions of their codewords -/

theorem takeWhile_append_term {symbols : Codeword} (h : ∀ x ∈ symbols, x = .zero ∨ x = .floating) :
    ((symbols ++ [Symbol.term]).takeWhile fun x => x != .term) = symbols := by
  rw [List.takeWhile_append_of_pos]
  · exact List.append_nil _
  · intro x hx
    rcases h x hx with rfl | rfl <;> rfl

theorem exists_switchA {i : Instr} {ga : BitVec 5} {galen : BitVec 8} {dev : BitVec 3}
    (h : i = .switchOnA ga galen dev ∨ i = .switchOffA ga galen dev) :
    ∃ on : Bool, i = if on then .switchOnA ga galen dev else .switchOffA ga galen dev :=
  h.elim (⟨true, ·⟩) (⟨false, ·⟩)

theorem exists_switchB {i : Instr} {ad ch : BitVec 3} (h : i = .switchOnB ad ch ∨ i = .switchOffB ad ch) :
    ∃ on : Bool, i = if on then .switchOnB ad ch else .switchOffB ad ch :=
  h.elim (⟨true, ·⟩) (⟨false, ·⟩)

section

variable {galen : BitVec 8} {dev : BitVec 3} (hlen : galen.toNat ≤ 5) (ga : BitVec 5) (on : Bool) (s : State)

include hlen

theorem exec_switchA_inRange (hdev : 1 ≤ dev.toNat ∧ dev.toNat ≤ 5) :
    exec (if on then .switchOnA ga galen dev else .switchOffA ga galen dev) s =
      exec (.sendTriState (symbolsA ga dev on ++ [.term])) s :=
  exec_switchA_eq hlen (Nat.one_le_iff_ne_zero.mp hdev.1) (buildTypeA_inRange hdev _ ga on) s

/-- Under this hardware's `Preserve` a device of 6 or 7 makes a codeword of the terminator alone (42_codeword_builder.md
R105; 43_transmitter.md R134). -/
theorem exec_switchA_outOfRange (hdev : 5 < dev.toNat) :
    exec (if on then .switchOnA ga galen dev else .switchOffA ga galen dev) s = exec (.sendTriState [.term]) s :=
  exec_switchA_eq hlen (Nat.ne_zero_of_lt hdev) (buildTypeA_outOfRange (.inr hdev) .preserve ga on) s

end

theorem exec_switchB_inRange {ad ch : BitVec 3} (had : 1 ≤ ad.toNat ∧ ad.toNat ≤ 4)
    (hch : 1 ≤ ch.toNat ∧ ch.toNat ≤ 4) (on : Bool) (s : State) :
    exec (if on then .switchOnB ad ch else .switchOffB ad ch) s =
      exec (.sendTriState (symbolsB ad ch on ++ [.term])) s :=
  exec_switchB_eq (buildTypeB_inRange had hch _ on) s

/-- Under this hardware's `Preserve` a code outside 1 ..= 4 makes a codeword of the terminator alone
(42_codeword_builder.md R108; 43_transmitter.md R134). -/
theorem exec_switchB_outOfRange {ad ch : BitVec 3}
    (h : ad.toNat = 0 ∨ 4 < ad.toNat ∨ ch.toNat = 0 ∨ 4 < ch.toNat) (on : Bool) (s : State) :
    exec (if on then .switchOnB ad ch else .switchOffB ad ch) s = exec (.sendTriState [.term]) s :=
  exec_switchB_eq (buildTypeB_outOfRange h .preserve on) s

/-! ### The checks of the scheme-A SWITCH commands, in the order of 43_transmitter.md R125 -/

theorem exec_switchA (ga : BitVec 5) (galen : BitVec 8) (dev : BitVec 3) (on : Bool) (s : State) :
    exec (if on then .switchOnA ga galen dev else .switchOffA ga galen dev) s =
      switchA Config.outOfRangePolicy ga galen dev on s := by
  cases on <;> rfl

theorem groupTooLong_iff (galen : BitVec 8) : groupTooLong galen = true ↔ 5 < galen.toNat := decide_eq_true_iff

theorem deviceIsNone_iff (dev : BitVec 3) : deviceIsNone dev = true ↔ dev.toNat = 0 := decide_eq_true_iff

section

variable {s : State} (hactive : s.life = .active) (policy : OutOfRangePolicy) (ga : BitVec 5) (on : Bool)

include hactive

theorem switchA_tooLong {galen : BitVec 8} (hlen : 5 < galen.toNat) (dev : BitVec 3) :
    switchA policy ga galen dev on s = .next (s.after [] s.out (.failed .invalidAddress)) := by
  rw [switchA, whenActive_active _ hactive, if_pos ((groupTooLong_iff galen).mpr hlen), State.fail_after]

section

variable {galen : BitVec 8} {dev : BitVec 3} (hlen : galen.toNat ≤ 5)

include hlen

theorem switchA_short :
    switchA policy ga galen dev on s = if deviceIsNone dev then .next s.answerOk
      else withCodeword (buildTypeA policy ga dev on) s fun cw => perform (.triState cw) s.passes s := by
  rw [switchA, whenActive_active _ hactive, if_neg (mt (groupTooLong_iff galen).mp (Nat.not_lt.mpr hlen))]

theorem switchA_none (hdev : dev.toNat = 0) :
    switchA policy ga galen dev on s = .next (s.after [] s.out .done) := by
  rw [switchA_short hactive policy ga on hlen, if_pos ((deviceIsNone_iff dev).mpr hdev), State.answerOk_after]

theorem switchA_reject (hdev : 5 < dev.toNat) :
    switchA .reject ga galen dev on s = .next (s.after [] s.out (.failed .invalidArgument)) := by
  rw [switchA_short hactive .reject ga on hlen, if_neg (mt (deviceIsNone_iff dev).mp (Nat.ne_zero_of_lt hdev)),
    buildTypeA_outOfRange (.inr hdev), ← State.fail_after]
  rfl

end

theorem switchB_reject {ad ch : BitVec 3} (h : ad.toNat = 0 ∨ 4 < ad.toNat ∨ ch.toNat = 0 ∨ 4 < ch.toNat) :
    switchB .reject ad ch on s = .next (s.after [] s.out (.failed .invalidArgument)) := by
  rw [switchB, whenActive_active _ hactive, buildTypeB_outOfRange h, ← State.fail_after]
  rfl

end

theorem decode_switchA {ga : BitVec 5} {galen : BitVec 8}
    (hfits : 5 < galen.toNat ∨ ∀ j, galen.toNat ≤ j → j < 5 → ga.getLsbD j = false) (dev : BitVec 3) (on : Bool) :
    decode ⟨if on then 0x30#8 else 0x31#8, ga.setWidth 32 ||| (galen.setWidth 32 <<< 8), dev.setWidth 32, []⟩ =
      .ok (if on then .switchOnA ga galen dev else .switchOffA ga galen dev) := by
  have hwf : groupFits ga galen = true := (groupFits_iff ga galen).mpr hfits
  cases on
  · exact decodeOfEncodeIsTheInstruction (.switchOffA ga galen dev) hwf
  · exact decodeOfEncodeIsTheInstruction (.switchOnA ga galen dev) hwf

/-- Settles O44: the two checks, then the transmission of the codeword the builder gives in and out of range. -/
theorem switchAChecksThenTransmits : Obligations.SwitchAChecksThenTransmits := by
  rintro on ga galen dev i rfl
  refine ⟨fun hfits => decode_switchA hfits dev on, needsLine_of_drivesLine (by cases on <;> rfl),
    fun s n hactive hn => ⟨fun hlen => ?_, fun hlen hdev => ?_, fun hlen hdev => ⟨fun p hsync => ⟨fun hmax => ?_,
      fun hout => ?_⟩, fun hn0 hbad => ?_, switchA_reject hactive ga on hlen⟩⟩⟩
  · rw [exec_switchA, switchA_tooLong hactive _ ga on hlen]
  · rw [exec_switchA, switchA_none hactive _ ga on hlen hdev]
  · rw [exec_switchA_inRange hlen ga on s ⟨hdev, hmax⟩, exec_sendTriState_emits hactive hn _ hsync,
      takeWhile_append_term symbolsA_zero_or_floating]
  · rw [exec_switchA_outOfRange hlen ga on s hout, exec_sendTriState_term hactive hn hsync]
  · obtain ⟨cw, hcw⟩ := exists_buildTypeA ga dev on
    rw [RefusedFor, exec_switchA_eq hlen (Nat.one_le_iff_ne_zero.mp hdev) hcw s]
    exact exec_sendTriState_refused hactive hn cw hn0 hbad

/-- Settles O45: the transmission of the codeword the builder gives in and out of range. -/
theorem switchBTransmits : Obligations.SwitchBTransmits := by
  rintro on ad ch i rfl
  refine ⟨?_, needsLine_of_drivesLine (by cases on <;> rfl),
    fun s n hactive hn => ⟨fun p hsync => ⟨fun hin => ?_, fun hout => ?_⟩, fun hn0 hbad => ?_,
      switchB_reject hactive on⟩⟩
  · cases on
    · exact decodeOfEncodeIsTheInstruction (.switchOffB ad ch) rfl
    · exact decodeOfEncodeIsTheInstruction (.switchOnB ad ch) rfl
  · obtain ⟨hadMin, hadMax, hch⟩ := hin
    rw [exec_switchB_inRange ⟨hadMin, hadMax⟩ hch on s, exec_sendTriState_emits hactive hn _ hsync,
      takeWhile_append_term symbolsB_zero_or_floating]
  · rw [exec_switchB_outOfRange hout on s, exec_sendTriState_term hactive hn hsync]
  · obtain ⟨cw, hcw⟩ := exists_buildTypeB ad ch on
    rw [RefusedFor, exec_switchB_eq hcw s]
    exact exec_sendTriState_refused hactive hn cw hn0 hbad

/-- Settles O48: an out-of-range SWITCH transmits a codeword with no symbol before its terminator. -/
theorem outOfRangeSwitchesEmitSyncsOnly : Obligations.OutOfRangeSwitchesEmitSyncsOnly := by
  rintro i s n p (⟨ga, galen, dev, hlen, hdev, hi⟩ | ⟨ad, ch, hout, hi⟩) hactive hn hsync
  · obtain ⟨on, rfl⟩ := exists_switchA hi
    rw [exec_switchA_outOfRange hlen ga on s hdev, exec_sendTriState_term hactive hn hsync]
    rfl
  · obtain ⟨on, rfl⟩ := exists_switchB hi
    rw [exec_switchB_outOfRange hout on s, exec_sendTriState_term hactive hn hsync]
    rfl

/-! ### One sync in each pass -/

theorem delay_mem_transmitAt {p : Nat} (hp : 0 < p) {h l m : Nat} :
    Effect.delay (p * m) ∈ transmitAt p h l ↔ m = h ∨ m = l := by
  simp [transmitAt, hp.ne']

/-- A positive pulse length makes the sync's low delay longer than every delay of a tri-state symbol (41_waveform.md
R80). -/
theorem sync_not_mem_triSegments (pr : Protocol) {p : Nat} (hp : 0 < p) (x : Symbol) :
    Effect.delay (p * syncLow pr) ∉ triSegments p x := by
  cases x with
  | zero | one | floating =>
    cases pr <;> simp [triSegments, delay_mem_transmitAt hp, syncLow]
  | term => exact List.not_mem_nil

theorem sync_not_mem_bitSegments (pr : Protocol) {p : Nat} (hp : 0 < p) (x : Symbol) :
    Effect.delay (p * syncLow pr) ∉ bitSegments pr p x := by
  cases x with
  | zero | one => cases pr <;> simp [bitSegments, delay_mem_transmitAt hp, syncLow]
  | floating | term => exact List.not_mem_nil

theorem count_sync_syncSegment (pr : Protocol) {p : Nat} (hp : 0 < p) :
    (syncSegment pr p).count (.delay (p * syncLow pr)) = 1 := by
  cases pr <;> simp [syncSegment, transmitAt, syncLow, hp.ne']

/-- `n` passes whose symbols do not emit the sync's low delay hold it `n` times. -/
theorem count_sync_passesOf {pr : Protocol} {p : Nat} (hp : 0 < p) {f : Symbol → List Effect}
    (hf : ∀ x, Effect.delay (p * syncLow pr) ∉ f x) (n : Nat) (cw : Codeword) :
    (passesOf n (cw.flatMap f) pr p).count (.delay (p * syncLow pr)) = n := by
  have hpass : (cw.flatMap f).count (.delay (p * syncLow pr)) = 0 :=
    List.count_eq_zero.mpr fun h => by
      obtain ⟨x, -, hx⟩ := List.mem_flatMap.mp h
      exact hf x hx
  rw [passesOf, List.count_flatten, List.map_replicate, List.count_append, hpass, count_sync_syncSegment pr hp]
  simp

/-- A codeword transmission past its checks is SEND_BIN, or SEND_TRI_STATE on some codeword (43_transmitter.md R125,
R128). -/
theorem exec_transmission_cases {i : Instr}
    (hi : (∃ cw, i = .sendTriState cw) ∨ (∃ cw, i = .sendBin cw) ∨
      (∃ ga galen dev, galen.toNat ≤ 5 ∧ dev.toNat ≠ 0 ∧
        (i = .switchOnA ga galen dev ∨ i = .switchOffA ga galen dev)) ∨
      (∃ ad ch, i = .switchOnB ad ch ∨ i = .switchOffB ad ch)) (s : State) :
    ∃ cw, exec i s = exec (.sendTriState cw) s ∨ exec i s = exec (.sendBin cw) s := by
  obtain ⟨cw, rfl⟩ | ⟨cw, rfl⟩ | ⟨ga, galen, dev, hlen, hdev, hi⟩ | ⟨ad, ch, hi⟩ := hi
  · exact ⟨cw, .inl rfl⟩
  · exact ⟨cw, .inr rfl⟩
  · obtain ⟨on, rfl⟩ := exists_switchA hi
    obtain ⟨cw, hcw⟩ := exists_buildTypeA ga dev on
    exact ⟨cw, .inl (exec_switchA_eq hlen hdev hcw s)⟩
  · obtain ⟨on, rfl⟩ := exists_switchB hi
    obtain ⟨cw, hcw⟩ := exists_buildTypeB ad ch on
    exact ⟨cw, .inl (exec_switchB_eq hcw s)⟩

/-- Settles O46: the sync ends each pass, and no symbol emits its low delay. -/
theorem everyPassEndsInOneSync : Obligations.EveryPassEndsInOneSync := by
  intro i s n p hi hactive hn hsync
  obtain ⟨cw, h | h⟩ := exec_transmission_cases hi s
  · rw [h, exec_sendTriState_emits hactive hn cw hsync]
    refine ⟨_, rfl, fun hp => count_sync_passesOf hp (sync_not_mem_triSegments _ hp) _ _, ?_⟩
    rintro rfl; rfl
  · rw [h, exec_sendBin_emits hactive hn cw hsync]
    refine ⟨_, rfl, fun hp => count_sync_passesOf hp (sync_not_mem_bitSegments _ hp) _ _, ?_⟩
    rintro rfl; rfl

/-! ### Sizes -/

theorem Job.length_plan (pr : Protocol) (n : Nat) (j : Job) :
    (j.plan pr n).length = n * (j.pass pr).flatten.length := by
  simp [Job.plan]

theorem length_waveBin (pr : Protocol) (x : Symbol) : (waveBin pr x).length = if isBit x then 1 else 0 := by
  cases x <;> rfl

theorem length_waveTri (x : Symbol) : (waveTri x).length = if x = .term then 0 else 2 := by
  cases x <;> rfl

/-- A pass of SEND_TRI_STATE is two `T` calls for each symbol before the first `TERM` and one for the sync
(41_waveform.md R94; 43_transmitter.md R129). -/
theorem length_flatten_triPass (pr : Protocol) (cw : Codeword) :
    (triPass pr cw).flatten.length = 2 * (cw.takeWhile fun x => x != .term).length + 1 := by
  have hsymbols : ((beforeTerm cw).map waveTri).flatten.length = 2 * (beforeTerm cw).length := by
    induction cw with
    | nil => rfl
    | cons x cw ih =>
      rw [beforeTerm]
      split
      · rfl
      · rw [List.map_cons, List.flatten_cons, List.length_append, length_waveTri, if_neg ‹_›, ih, List.length_cons]
        omega
  rw [triPass, List.flatten_append, List.length_append, hsymbols, beforeTerm_eq]
  rfl

/-- A pass of SEND_BIN is one `T` call for each zero or one and one for the sync (41_waveform.md R94; 43_transmitter.md
R131). -/
theorem length_flatten_binPass (pr : Protocol) (cw : Codeword) :
    (binPass .wholeWord pr cw).flatten.length = cw.countP isBit + 1 := by
  have hbits : (cw.map (waveBin pr)).flatten.length = cw.countP isBit := by
    induction cw with
    | nil => rfl
    | cons x cw ih =>
      rw [List.map_cons, List.flatten_cons, List.length_append, length_waveBin, ih, List.countP_cons, Nat.add_comm]
  rw [binPass, List.flatten_append, List.length_append, scanned, hbits]
  rfl

/-- A codeword job makes two line writes and two delays for each `T` call of its passes (41_waveform.md R82). -/
theorem perform_passes_sizes {s : State} {j : Job} {n p : Nat} (hj : j.isPasses s.protocol)
    (h : n = 0 ∨ s.pulse.toInt = p ∧ ¬ s.delayBad (syncLow s.protocol)) :
    ∃ tr level, perform j n s = .next (s.after tr level .done) ∧
      lineWrites tr = n * (2 * (j.pass s.protocol).flatten.length) ∧ delayRequests tr = lineWrites tr := by
  refine ⟨_, _, perform_passes hj h, ?_, ?_⟩
  · rw [lineWrites_waveEffects, Job.length_plan, Nat.mul_left_comm]
  · rw [lineWrites_waveEffects, delayRequests_waveEffects]

section

variable {s : State} {n p : Nat} (hactive : s.life = .active) (hn : s.repeatCount.toInt = n)
  (h : n = 0 ∨ s.pulse.toInt = p ∧ ¬ s.delayBad (syncLow s.protocol))

include hactive hn h

theorem exec_sendTriState_sizes (cw : Codeword) :
    ∃ tr level, exec (.sendTriState cw) s = .next (s.after tr level .done) ∧
      lineWrites tr = n * (4 * (cw.takeWhile fun x => x != .term).length + 2) ∧ delayRequests tr = lineWrites tr := by
  obtain ⟨tr, level, hexec, hwrites, hdelays⟩ := perform_passes_sizes (triState_isPasses _ cw) h
  rw [exec_sendTriState cw hactive, State.passes_eq hn]
  refine ⟨tr, level, hexec, hwrites.trans (congrArg (n * ·) ?_), hdelays⟩
  rw [Job.pass, length_flatten_triPass]
  omega

theorem exec_sendBin_sizes (cw : Codeword) :
    ∃ tr level, exec (.sendBin cw) s = .next (s.after tr level .done) ∧
      lineWrites tr = n * (2 * cw.countP isBit + 2) ∧ delayRequests tr = lineWrites tr := by
  obtain ⟨tr, level, hexec, hwrites, hdelays⟩ := perform_passes_sizes (binary_isPasses _ cw) h
  rw [exec_sendBin cw hactive, State.passes_eq hn]
  refine ⟨tr, level, hexec, hwrites.trans (congrArg (n * ·) ?_), hdelays⟩
  rw [Job.pass, Config.binScan, length_flatten_binPass]
  omega

/-- The twelve symbols of a codeword in range (42_codeword_builder.md R100). -/
theorem exec_sendTriState_sizes_twelve {symbols : Codeword} (hlen : symbols.length = 12)
    (hsymbols : ∀ x ∈ symbols, x = .zero ∨ x = .floating) :
    ∃ tr level, exec (.sendTriState (symbols ++ [.term])) s = .next (s.after tr level .done) ∧
      lineWrites tr = 50 * n ∧ delayRequests tr = lineWrites tr := by
  have hsizes := exec_sendTriState_sizes hactive hn h (symbols ++ [.term])
  rwa [takeWhile_append_term hsymbols, hlen, Nat.mul_comm] at hsizes

end

/-- The delay check of a pass, for some pulse length in microseconds. -/
theorem exists_pulse_of_sync_inRange {s : State} {n : Nat}
    (h : n = 0 ∨ ¬ s.delayBad 1 ∧ ¬ s.delayBad (syncLow s.protocol)) :
    ∃ p : Nat, n = 0 ∨ s.pulse.toInt = p ∧ ¬ s.delayBad (syncLow s.protocol) := by
  obtain hn | ⟨hunit, hsync⟩ := h
  · exact ⟨0, .inl hn⟩
  · obtain ⟨p, hp⟩ := State.exists_pulse hunit
    exact ⟨p, .inr ⟨hp, hsync⟩⟩

/-- Settles O47, from the `T` calls of a pass; a SWITCH in range transmits twelve symbols. -/
theorem traceSizes : Obligations.TraceSizes := by
  intro s n hactive hn hrange
  obtain ⟨p, hsync⟩ := exists_pulse_of_sync_inRange hrange
  refine ⟨exec_sendTriState_sizes hactive hn hsync, exec_sendBin_sizes hactive hn hsync,
    fun ga galen dev i hlen hmin hmax hi => ?_, fun ad ch i hadMin hadMax hmin hmax hi => ?_⟩
  · obtain ⟨on, rfl⟩ := exists_switchA hi
    rw [exec_switchA_inRange hlen ga on s ⟨hmin, hmax⟩]
    exact exec_sendTriState_sizes_twelve hactive hn hsync (symbolsA_length ga dev on) symbolsA_zero_or_floating
  · obtain ⟨on, rfl⟩ := exists_switchB hi
    rw [exec_switchB_inRange ⟨hadMin, hadMax⟩ ⟨hmin, hmax⟩ on s]
    exact exec_sendTriState_sizes_twelve hactive hn hsync (symbolsB_length ad ch on) symbolsB_zero_or_floating

end Sys2Proof.Machine

/-! SUPPORT and CERTIFICATE. The Binary Converter (44_binary_converter.md R145 to R149): the digits of a value are a
suffix of its 32 bits that holds the same value, and SEND_BIN sends nothing for the filler and the terminator around
them. -/

namespace Sys2Proof.Machine

/-! ### The value of a binary codeword -/

/-- The number a codeword of `0` and `1` writes in base two, most-significant first, as the claims read it. -/
def binaryValue (d : Codeword) : Nat := d.foldl (fun acc x => 2 * acc + if x = .one then 1 else 0) 0

theorem binaryValue_concat (d : Codeword) (x : Symbol) :
    binaryValue (d ++ [x]) = 2 * binaryValue d + if x = .one then 1 else 0 := by
  simp [binaryValue]

theorem binaryValue_zero_cons (d : Codeword) : binaryValue (.zero :: d) = binaryValue d := rfl

theorem digitSymbol_eq_one_iff (b : Bool) : digitSymbol b = .one ↔ b = true := by cases b <;> decide

/-- Doubling a shifted number and adding the next bit shifts by one bit less. -/
theorem two_mul_shiftRight_add_testBit (m k : Nat) :
    2 * (m >>> (k + 1)) + (if m.testBit k = true then 1 else 0) = m >>> k := by
  simp only [Nat.shiftRight_succ, Nat.testBit_eq_decide_div_mod_eq, ← Nat.shiftRight_eq_div_pow, decide_eq_true_iff]
  split <;> omega

/-- The first `n` of the 32 bits write the value without its other bits (20_memory.md R45). -/
theorem binaryValue_leading_bits (v : Word) {n : Nat} (hn : n ≤ 32) :
    binaryValue (((List.range n).map fun j => v.getLsbD (31 - j)).map digitSymbol) = v.toNat >>> (32 - n) := by
  induction n with
  | zero => exact (Nat.shiftRight_eq_zero _ _ v.isLt).symm
  | succ n ih =>
    rw [List.range_succ, List.map_append, List.map_append, List.map_singleton, List.map_singleton,
      binaryValue_concat, ih (by omega), show 32 - n = 31 - n + 1 by omega, show 32 - (n + 1) = 31 - n by omega]
    simp only [digitSymbol_eq_one_iff]
    exact two_mul_shiftRight_add_testBit ..

theorem binaryValue_bitsMsbFirst (v : Word) : binaryValue ((bitsMsbFirst v).map digitSymbol) = v.toNat :=
  binaryValue_leading_bits v (Nat.le_refl 32)

/-! ### Leading zeros -/

theorem dropLeadingZeros_suffix (bs : List Bool) : dropLeadingZeros bs <:+ bs := by
  induction bs with
  | nil => exact List.suffix_rfl
  | cons b bs ih =>
    cases b
    · exact ih.trans (List.suffix_cons _ _)
    · exact List.suffix_rfl

theorem binaryValue_dropLeadingZeros (bs : List Bool) :
    binaryValue ((dropLeadingZeros bs).map digitSymbol) = binaryValue (bs.map digitSymbol) := by
  induction bs with
  | nil => rfl
  | cons b bs ih =>
    cases b
    · exact ih.trans (binaryValue_zero_cons _).symm
    · rfl

theorem head?_dropLeadingZeros {bs : List Bool} (h : dropLeadingZeros bs ≠ []) :
    (dropLeadingZeros bs).head? = some true := by
  induction bs with
  | nil => exact absurd rfl h
  | cons b bs ih =>
    cases b
    · exact ih h
    · rfl

/-! ### The digits of a value (44_binary_converter.md R145) -/

theorem digits_zero : digits 0#32 = [.zero] := rfl

theorem digits_of_ne_zero {v : Word} (h : v ≠ 0#32) :
    digits v = (dropLeadingZeros (bitsMsbFirst v)).map digitSymbol := if_neg h

theorem binaryValue_digits (v : Word) : binaryValue (digits v) = v.toNat := by
  by_cases h : v = 0#32
  · subst h; rfl
  · rw [digits_of_ne_zero h, binaryValue_dropLeadingZeros, binaryValue_bitsMsbFirst]

theorem digits_zero_or_one {v : Word} : ∀ x ∈ digits v, x = .zero ∨ x = .one := by
  intro x hx
  by_cases h : v = 0#32
  · subst h; exact .inl (List.mem_singleton.mp hx)
  · rw [digits_of_ne_zero h] at hx
    obtain ⟨b, -, rfl⟩ := List.mem_map.mp hx
    cases b
    · exact .inl rfl
    · exact .inr rfl

/-- A value other than 0 has a bit set, so its digits begin at its highest one. -/
theorem head?_digits {v : Word} (h : v ≠ 0#32) : (digits v).head? = some .one := by
  have hne : dropLeadingZeros (bitsMsbFirst v) ≠ [] := fun hnil => by
    have hvalue := binaryValue_digits v
    rw [digits_of_ne_zero h, hnil] at hvalue
    exact h (BitVec.eq_of_toNat_eq hvalue.symm)
  rw [digits_of_ne_zero h, List.head?_map, head?_dropLeadingZeros hne]
  rfl

theorem one_le_length_digits (v : Word) : 1 ≤ (digits v).length := by
  by_cases h : v = 0#32
  · subst h; exact Nat.le_refl 1
  · exact List.length_pos_of_mem (List.mem_of_mem_head? (head?_digits h))

theorem length_digits_le (v : Word) : (digits v).length ≤ 32 := by
  by_cases h : v = 0#32
  · subst h; decide
  · rw [digits_of_ne_zero h, List.length_map]
    exact (dropLeadingZeros_suffix _).length_le

theorem countP_isBit_digits (v : Word) : (digits v).countP isBit = (digits v).length :=
  List.countP_eq_length.mpr fun x hx => by
    rcases digits_zero_or_one x hx with rfl | rfl <;> rfl

/-! ### DEC_TO_BIN (44_binary_converter.md R146 to R148) -/

section

variable {s : State} {value : Word} {bitlen : BitVec 8} (hs : s.life ≠ .unconfigured)

include hs

theorem exec_decToBin_fits (h : (digits value).length ≤ bitlen.toNat) :
    exec (.decToBin value bitlen) s = .next (s.answerCodeword (zeroFilled (digits value) bitlen.toNat)) :=
  (whenConstructed_of _ hs).trans (if_neg (Nat.not_lt.mpr h))

theorem exec_decToBin_wide (h : bitlen.toNat < (digits value).length) :
    RefusedFor .valueWiderThanBitLength (.decToBin value bitlen) s := by
  rw [RefusedFor, ← State.refuse_after]
  exact (whenConstructed_of _ hs).trans (if_pos h)

end

/-- Settles O52: the codeword `d` is `digits value`. -/
theorem decToBinReturnsFillerDigitsTerminator : Obligations.DecToBinReturnsFillerDigitsTerminator := by
  refine ⟨fun value bitlen => ⟨decodeOfEncodeIsTheInstruction (.decToBin value bitlen) rfl,
    needsConstruction_of_not_drivesLine rfl nofun⟩, fun value => ⟨digits value, digits_zero_or_one,
      binaryValue_digits value, ?_, head?_digits, one_le_length_digits value, length_digits_le value,
      fun bitlen s hs => ⟨fun hfits => ?_, exec_decToBin_wide hs⟩⟩⟩
  · rintro rfl; exact digits_zero
  · rw [exec_decToBin_fits hs hfits, State.answerCodeword_eq, State.after_nil, zeroFilled]

/-! ### SEND_DEC (44_binary_converter.md R149; 30_encoding.md R68) -/

/-- A map that is empty at `TERM` sees only the digits of a filled codeword. -/
theorem flatMap_zeroFilled {α : Type} {f : Symbol → List α} (hf : f .term = []) (d : Codeword) (bitlen : Nat) :
    (zeroFilled d bitlen).flatMap f = d.flatMap f := by
  simp [zeroFilled, List.flatMap_append, List.flatMap_replicate, hf]

/-- Settles O53: SEND_BIN on the filled codeword emits what it emits on the digits alone, whatever the filler. -/
theorem sendDecTransmitsTheSignificantDigits : Obligations.SendDecTransmitsTheSignificantDigits := by
  refine fun value => ⟨digits value, binaryValue_digits value, countP_isBit_digits value, head?_digits,
    fun bitlen s n p hfits hactive hn hp hsync => ?_⟩
  have hconvert := exec_decToBin_fits (s := s) (by simp [hactive]) hfits
  have hsend := exec_sendBin_emits (s := s.answerCodeword (zeroFilled (digits value) bitlen.toNat)) hactive hn
    (zeroFilled (digits value) bitlen.toNat) (.inr ⟨hp, hsync⟩)
  rw [flatMap_zeroFilled rfl] at hsend
  exact ⟨_, (chain_codeword hconvert).trans hsend, rfl⟩

end Sys2Proof.Machine

/-! SUPPORT and CERTIFICATE. Statuses and completion (60_exceptions.md): with which statuses each command may end, that
every other status than `OK` leaves the block as it was, and that a command in flight ends wherever its sequencer
stands. -/

namespace Sys2Proof.Machine

/-! ### The end of a command -/

/-- The statuses a command may be answered with under this hardware's `Preserve` (60_exceptions.md R155 to R160). -/
def MayAnswer (i : Instr) : Status → Prop
  | .ok | .refused _ => True
  | .invalidConfiguration => False
  | .invalidAddress => ∃ ga galen dev, i = .switchOnA ga galen dev ∨ i = .switchOffA ga galen dev
  | .invalidArgument => ∃ val, i = .setRepeatCount val

/-- A result ends the command `i` taken up in `s`: one answer more, of a status the command may be answered with, and the
port idle; and a failure has done nothing else (60_exceptions.md R155, R165). -/
def Ends (i : Instr) (s : State) (r : Result) : Prop :=
  ∃ t a, r = .next t ∧ t.answers = s.answers ++ [a] ∧ t.busy = false ∧ t.flight = none ∧ t.pending = s.pending ∧
    MayAnswer i a.status ∧ (a.status ≠ .ok → t = s.after [] s.out a)

section

variable {i : Instr} {s : State}

theorem ends_fail {status : Status} (h : MayAnswer i status) : Ends i s (.next (s.fail status)) :=
  ⟨_, .failed status, rfl, rfl, rfl, rfl, rfl, h, fun _ => s.fail_after status⟩

theorem ends_refuse (why : RefuseReason) : Ends i s (.next (s.refuse why)) := ends_fail trivial

/-- A command that succeeds, whatever it has done to the registers and the line. -/
theorem ends_answer {u : State} (hans : u.answers = s.answers) (hpend : u.pending = s.pending) {a : Answer}
    (ha : a.status = .ok) : Ends i s (.next (u.answer a)) :=
  ⟨_, a, rfl, congrArg (· ++ [a]) hans, rfl, rfl, hpend, ha ▸ trivial, fun h => absurd ha h⟩

theorem ends_answerOk {u : State} (hans : u.answers = s.answers) (hpend : u.pending = s.pending) :
    Ends i s (.next u.answerOk) := ends_answer hans hpend rfl

theorem ends_whenConstructed {k : Result} (hk : Ends i s k) : Ends i s (whenConstructed s k) := by
  by_cases h : s.life = .unconfigured
  · rw [whenConstructed_unconfigured k h]; exact ends_refuse _
  · rwa [whenConstructed_of k h]

theorem ends_whenActive {k : Result} (hk : Ends i s k) : Ends i s (whenActive s k) := by
  cases h : s.life with
  | unconfigured => rw [whenActive_unconfigured k h]; exact ends_refuse _
  | active => rwa [whenActive_active k h]
  | disposed => rw [whenActive_disposed k h]; exact ends_refuse _

theorem ends_perform (j : Job) (n : Nat) : Ends i s (perform j n s) := by
  obtain ⟨-, h⟩ | ⟨-, h⟩ := perform_cases j n s <;> rw [h]
  · exact ends_answerOk rfl rfl
  · exact ends_refuse _

/-- `switch_a` may fail for the length of its group address; its builder gives a codeword (43_transmitter.md R125). -/
theorem ends_switchA (hi : MayAnswer i .invalidAddress) (ga : BitVec 5) (galen : BitVec 8) (dev : BitVec 3) (on : Bool) :
    Ends i s (switchA Config.outOfRangePolicy ga galen dev on s) := by
  refine ends_whenActive ?_
  split
  · exact ends_fail hi
  · split
    · exact ends_answerOk rfl rfl
    · obtain ⟨cw, h⟩ := exists_buildTypeA ga dev on
      rw [h]; exact ends_perform ..

theorem ends_switchB (ad ch : BitVec 3) (on : Bool) : Ends i s (switchB Config.outOfRangePolicy ad ch on s) := by
  obtain ⟨cw, h⟩ := exists_buildTypeB ad ch on
  rw [switchB, h]
  exact ends_whenActive (ends_perform ..)

end

/-- Every command, on every state, ends. -/
theorem exec_ends (i : Instr) (s : State) : Ends i s (exec i s) := by
  cases i with
  | setProtocol pr =>
    exact ends_whenConstructed (ends_answerOk (State.assignProtocol_answers ..) (State.assignProtocol_pending ..))
  | setPulseLength val => exact ends_whenConstructed (ends_answerOk rfl rfl)
  | setRepeatCount val =>
    refine ends_whenConstructed ?_
    split
    · exact ends_fail ⟨val, rfl⟩
    · exact ends_answerOk rfl rfl
  | getProtocol | getPulseLength | getRepeatCount => exact ends_whenConstructed (ends_answer rfl rfl rfl)
  | dispose =>
    cases h : s.life with
    | unconfigured => rw [exec_dispose_unconfigured h]; exact ends_refuse _
    | active => rw [exec_dispose_active h]; exact ends_answerOk rfl rfl
    | disposed => rw [exec_dispose_disposed h, State.after_nil]; exact ends_answer rfl rfl rfl
  | transmit _ _ | sendSync | sendBit0 | sendBit1 | sendTri0 | sendTri1 | sendTriF | sendTriState _ | sendBin _ =>
    exact ends_whenActive (ends_perform ..)
  | buildTypeA ga ch st =>
    obtain ⟨cw, h⟩ := exists_buildTypeA ga ch st
    rw [exec_buildTypeA_eq h]
    exact ends_whenConstructed (ends_answer rfl rfl rfl)
  | buildTypeB ad ch st =>
    obtain ⟨cw, h⟩ := exists_buildTypeB ad ch st
    rw [exec_buildTypeB_eq h]
    exact ends_whenConstructed (ends_answer rfl rfl rfl)
  | switchOnA ga galen dev => exact ends_switchA ⟨ga, galen, dev, .inl rfl⟩ ..
  | switchOffA ga galen dev => exact ends_switchA ⟨ga, galen, dev, .inr rfl⟩ ..
  | switchOnB _ _ | switchOffB _ _ => exact ends_switchB ..
  | decToBin value bitlen =>
    refine ends_whenConstructed ?_
    split
    · exact ends_refuse _
    · exact ends_answer rfl rfl rfl

/-- Settles O16, from the one end every command comes to. -/
theorem everyCommandEndsWithOneStatus : Obligations.EveryCommandEndsWithOneStatus := by
  refine ⟨⟨rfl, rfl, rfl, rfl, fun _ => rfl⟩, fun i s => ?_⟩
  obtain ⟨t, a, ht, hans, hbusy, hflight, hpending, hmay, -⟩ := exec_ends i s
  have may_of_eq {status : Status} (hs : a.status = status) : MayAnswer i status := hs ▸ hmay
  exact ⟨t, a, ht, hans, hbusy, hflight, hpending, may_of_eq, may_of_eq, may_of_eq⟩

/-- Settles O17, from the one end every command comes to. -/
theorem errorsArePrecise : Obligations.ErrorsArePrecise := by
  intro i s t a hexec hans hstatus
  obtain ⟨u, b, hu, hansu, -, -, -, -, hprecise⟩ := exec_ends i s
  obtain rfl : t = u := Host.Outcome.next.inj (hexec.symm.trans hu)
  obtain rfl : a = b := List.singleton_inj.mp (List.append_cancel_left (hans.symm.trans hansu))
  exact hprecise hstatus

/-! ### Construction alone is answered `INVALID_CONFIGURATION` -/

/-- A step adds at most one answer, and not `INVALID_CONFIGURATION` (60_exceptions.md R156). -/
theorem step_answers {s t : State} (h : step s = .next t) :
    t.answers = s.answers ∨ ∃ a, t.answers = s.answers ++ [a] ∧ a.status ≠ .invalidConfiguration := by
  obtain ⟨-, f, -, rfl⟩ | ⟨-, -, rfl⟩ | ⟨hb, p, rest, hp, ⟨why, -, rfl⟩ | ⟨i, hdecode, -⟩⟩ := step_cases h
  · obtain ⟨-, e, -, -, -, hadv⟩ | ⟨-, k, i, -, hadv⟩ | ⟨-, hadv⟩ := advance_cases f s <;> rw [hadv]
    · exact .inl rfl
    · exact .inl rfl
    · exact .inr ⟨.done, rfl, nofun⟩
  · exact .inl rfl
  · exact .inr ⟨.failed (.refused why), rfl, nofun⟩
  · obtain ⟨u, a, hu, hans, -, -, -, hmay, -⟩ := exec_ends i (s.accept rest)
    have hstep : step s = .next u := (stepRunsTheDecodedInstruction s p rest i hb hp hdecode).trans hu
    obtain rfl : t = u := Host.Outcome.next.inj (h.symm.trans hstep)
    exact .inr ⟨a, hans, fun hs => (hs ▸ hmay : MayAnswer i .invalidConfiguration)⟩

/-- Construction fails exactly on a line that is absent or not in output mode (70_reset_and_hazards.md R180, R181). -/
theorem construct_invalidConfiguration_iff (line : LineFacts) (s : State) :
    (construct line s).1 = .invalidConfiguration ↔ line.present = false ∨ line.outputMode = false := by
  cases hpresent : line.present <;> cases hmode : line.outputMode <;> simp [construct, hpresent, hmode]

theorem construct_trace (line : LineFacts) (s : State) : (construct line s).2.trace = s.trace := by
  rw [construct]
  split <;> rfl

/-- Settles O18: an answer a step adds has another status. -/
theorem onlyConstructionIsAnInvalidConfiguration : Obligations.OnlyConstructionIsAnInvalidConfiguration := by
  refine ⟨fun line s => ⟨construct_invalidConfiguration_iff line s, construct_trace line s⟩, fun s t h a ha hs => ?_⟩
  obtain hold | ⟨b, hnew, hb⟩ := step_answers h
  · rwa [← hold]
  · rw [hnew] at ha
    rcases List.mem_append.mp ha with ha | ha
    · exact ha
    · exact absurd (List.mem_singleton.mp ha ▸ hs) hb

/-! ### A command in flight ends -/

/-- From where it stands the sequencer reaches the end of its command, whatever else the block holds. -/
def Flight.Completes (f : Flight) : Prop :=
  ∀ s : State, ∃ n es, drive n (s.fly f) = (s.emitAll es).answerOk

/-- A flight completes if some moves bring it to a place from which it completes. -/
theorem Flight.Completes.of_drive {f g : Flight} (hg : g.Completes) {n : Nat} {es : List Effect}
    (h : ∀ (m : Nat) (s : State), drive (n + m) (s.fly f) = drive m ((s.emitAll es).fly g)) : f.Completes := by
  intro s
  obtain ⟨m, fs, hm⟩ := hg (s.emitAll es)
  exact ⟨n + m, es ++ fs, by rw [h, hm, State.emitAll_emitAll]⟩

/-- A flight completes if one silent move brings it to a place from which it completes. -/
theorem Flight.Completes.of_advance {f g : Flight} (hg : g.Completes)
    (h : ∀ s : State, advance f (s.fly f) = s.fly g) : f.Completes := by
  refine hg.of_drive (n := 1) (es := []) fun m s => ?_
  rw [Nat.add_comm, drive_fly_succ, h, State.emitAll_nil]

/-- After the last pass the next move answers. -/
theorem Flight.completes_of_passes_le {f : Flight} (h : f.passes ≤ f.k) : f.Completes := fun s =>
  ⟨1, [], by simp [drive, advance, Nat.not_lt.mpr h]⟩

/-- From the beginning of any pass (`drive_passes`). -/
theorem Flight.completes_at_pass (f : Flight) : Flight.Completes { f with i := 0, pos := 0 } := by
  rcases le_total f.passes f.k with h | h
  · exact completes_of_passes_le h
  · exact fun s => ⟨_, _, drive_passes f 0 (f.passes - f.k) f.k s (by omega)⟩

/-- From the beginning of any waveform: the rest of the pass is driven (`drive_pass`), and then a pass begins. -/
theorem Flight.completes_at_wave (f : Flight) : Flight.Completes { f with pos := 0 } := by
  rcases lt_or_ge f.k f.passes with hk | hk
  · exact (completes_at_pass { f with k := f.k + 1 }).of_drive fun m s => drive_pass f hk m _ f.i s rfl
  · exact completes_of_passes_le hk

/-- A flight completes from every place: before the end of a waveform it goes on within the waveform, at or beyond the
end it goes to the next waveform or the next pass, and after the last pass it answers. -/
theorem Flight.completes (f : Flight) : f.Completes := by
  rcases lt_or_ge f.k f.passes with hk | hk
  · cases hw : f.waveHere with
    | none => exact (completes_at_pass { f with k := f.k + 1 }).of_advance fun s => by simp [advance, hk, hw]
    | some es =>
      have hnext : Flight.Completes { f with i := f.i + 1, pos := 0 } := completes_at_wave { f with i := f.i + 1 }
      rcases le_or_gt f.pos es.length with hpos | hpos
      · exact hnext.of_drive fun m s => drive_wave f es hk hw m (es.length - f.pos) f.pos s (by omega)
      · exact hnext.of_advance fun s => by simp [advance, hk, hw, hpos.le]
  · exact completes_of_passes_le hk

theorem State.fly_of_flight {s : State} {f : Flight} (hb : s.busy = true) (hf : s.flight = some f) : s.fly f = s := by
  rw [State.fly, ← hb, ← hf]

/-- Settles O51: the moves that complete the flight are steps of the machine. -/
theorem everyFlightRunsToCompletion : Obligations.EveryFlightRunsToCompletion := by
  intro s f hb hf
  obtain ⟨n, es, hdrive⟩ := f.completes s
  obtain ⟨m, hrun⟩ := exists_run_eq_drive n s (by simp [hb, hf])
  rw [State.fly_of_flight hb hf, State.emitAll_answerOk] at hdrive
  exact ⟨m, es, _, hrun.trans (congrArg _ hdrive)⟩

/-! ### The waiting port -/

/-- Settles O14: the idle port takes the head of the issuer's list, and there is none. -/
theorem idlePortWaits : Obligations.IdlePortWaits := by
  intro s hb hp
  simp [step, idle, hb, hp]

end Sys2Proof.Machine

/-! SUPPORT and CERTIFICATE. Reset and hazards (70_reset_and_hazards.md): construction, the one direction the lifecycle
moves in, the order of SET_PULSE_LENGTH and SET_PROTOCOL, and the nominal duration of a trace, which is the units of its
`T` calls times the pulse length. -/

namespace Sys2Proof.Machine

/-! ### Nominal durations -/

/-- The units of a waveform, high and low (41_waveform.md R94). -/
def unitsOf (w : List Transmit) : Nat := (w.map fun t => t.high + t.low).sum

theorem unitsOf_append (v w : List Transmit) : unitsOf (v ++ w) = unitsOf v + unitsOf w := by
  simp [unitsOf]

theorem unitsOf_plan (pr : Protocol) (n : Nat) (j : Job) :
    unitsOf (j.plan pr n) = n * unitsOf (j.pass pr).flatten := by
  induction n with
  | zero => simp [Job.plan_zero, unitsOf]
  | succ n ih => rw [Job.plan_succ, unitsOf_append, ih, Nat.succ_mul, Nat.add_comm]

/-- A `T` call lasts its units, and the durations of `T` calls add up (70_reset_and_hazards.md R189). -/
theorem nominal_waveEffects {pulse : Word} {p : Nat} (hp : pulse.toInt = p) (w : List Transmit) :
    nominal (waveEffects pulse w) = unitsOf w * p := by
  induction w with
  | nil => simp [nominal, unitsOf]
  | cons t w ih =>
    have hcall : nominal (waveEffects pulse (t :: w)) = p * t.high + (p * t.low + nominal (waveEffects pulse w)) := by
      rw [← delayOf_toNat t.high hp, ← delayOf_toNat t.low hp]
      rfl
    rw [hcall, ih, unitsOf, unitsOf, List.map_cons, List.sum_cons]
    ring

/-- A codeword job lasts the units of its passes (43_transmitter.md R129, R131). -/
theorem perform_passes_nominal {s : State} {j : Job} {n p : Nat} (hj : j.isPasses s.protocol)
    (h : n = 0 ∨ s.pulse.toInt = p ∧ ¬ s.delayBad (syncLow s.protocol)) :
    ∃ tr level, perform j n s = .next (s.after tr level .done) ∧
      nominal tr = n * unitsOf (j.pass s.protocol).flatten * p := by
  refine ⟨_, _, perform_passes hj h, ?_⟩
  rcases h with rfl | ⟨hp, -⟩
  · simp [Job.plan_zero, nominal]
  · rw [nominal_waveEffects hp, unitsOf_plan]

theorem unitsOf_waveSync (pr : Protocol) : unitsOf (waveSync pr) = syncLow pr + 1 := by
  cases pr <;> rfl

theorem unitsOf_waveTri (x : Symbol) : unitsOf (waveTri x) = if x != .term then 8 else 0 := by
  cases x <;> rfl

theorem unitsOf_waveBin (pr : Protocol) (x : Symbol) :
    unitsOf (waveBin pr x) = if isBit x then bitLong pr + 1 else 0 := by
  cases pr <;> cases x <;> rfl

/-- Symbols that are all sent in `u` units or not at all last `u` units for each one sent. -/
theorem unitsOf_flatten_map {f : Symbol → List Transmit} {sent : Symbol → Bool} {u : Nat}
    (hf : ∀ x, unitsOf (f x) = if sent x then u else 0) (cw : Codeword) :
    unitsOf (cw.map f).flatten = u * cw.countP sent := by
  induction cw with
  | nil => rfl
  | cons x cw ih =>
    rw [List.map_cons, List.flatten_cons, unitsOf_append, hf, ih, List.countP_cons]
    split <;> ring

theorem unitsOf_flatten_triPass (pr : Protocol) (cw : Codeword) :
    unitsOf (triPass pr cw).flatten = 8 * (cw.takeWhile fun x => x != .term).length + (syncLow pr + 1) := by
  have hsent : (cw.takeWhile fun x => x != .term).countP (fun x => x != .term) =
      (cw.takeWhile fun x => x != .term).length :=
    List.countP_eq_length.mpr fun _ => List.mem_takeWhile_imp
  rw [triPass, List.flatten_append, unitsOf_append, unitsOf_flatten_map unitsOf_waveTri, beforeTerm_eq, hsent,
    List.flatten_singleton, unitsOf_waveSync]

theorem unitsOf_flatten_binPass (pr : Protocol) (cw : Codeword) :
    unitsOf (binPass .wholeWord pr cw).flatten = (bitLong pr + 1) * cw.countP isBit + (syncLow pr + 1) := by
  rw [binPass, scanned, List.flatten_append, unitsOf_append, unitsOf_flatten_map (unitsOf_waveBin pr),
    List.flatten_singleton, unitsOf_waveSync]

/-- Settles O49, from the units of a pass. -/
theorem nominalDurations : Obligations.NominalDurations := by
  refine ⟨fun pulse p w hp => nominal_waveEffects hp w, fun s n p hactive hn h => ⟨fun cw => ?_, fun cw => ?_⟩⟩
  · obtain ⟨tr, level, hexec, hnominal⟩ := perform_passes_nominal (triState_isPasses _ cw) h
    rw [exec_sendTriState cw hactive, State.passes_eq hn]
    refine ⟨tr, level, hexec, hnominal.trans ?_⟩
    rw [Job.pass, unitsOf_flatten_triPass]
    cases s.protocol <;> rfl
  · obtain ⟨tr, level, hexec, hnominal⟩ := perform_passes_nominal (binary_isPasses _ cw) h
    rw [exec_sendBin cw hactive, State.passes_eq hn]
    refine ⟨tr, level, hexec, hnominal.trans ?_⟩
    rw [Job.pass, Config.binScan, unitsOf_flatten_binPass]
    cases s.protocol <;> rfl

/-! ### The lifecycle -/

theorem advance_life (f : Flight) (s : State) : (advance f s).life = s.life := by
  obtain ⟨-, e, -, -, -, hadv⟩ | ⟨-, k, i, -, hadv⟩ | ⟨-, hadv⟩ := advance_cases f s <;> rw [hadv] <;> rfl

/-- A command keeps the lifecycle, but for the disposal of an active block (10_state.md R28). -/
theorem Answered.life {i : Instr} {s t : State} (h : Answered i s t) :
    t.life = s.life ∨ s.life = .active ∧ t.life = .disposed := by
  cases h with
  | failed | pulseSet | repeatSet | returned => exact .inl rfl
  | line _ _ ht =>
    obtain ⟨-, -, -, hlife, -⟩ := ht.frame
    exact .inl hlife
  | protocolSet pr => exact .inl (s.assignProtocol_life _ pr)
  | disposed _ hactive => exact .inr ⟨hactive, rfl⟩

/-- A step keeps the lifecycle, but for the disposal of an active block. -/
theorem step_life {s t : State} (h : step s = .next t) : t.life = s.life ∨ s.life = .active ∧ t.life = .disposed := by
  obtain ⟨-, f, -, rfl⟩ | ⟨-, -, rfl⟩ | ⟨-, p, rest, -, ⟨why, -, rfl⟩ | ⟨i, -, ht⟩⟩ := step_cases h
  · exact .inl (advance_life f s)
  · exact .inl rfl
  · exact .inl rfl
  · exact ht.life

/-- Settles O5: the disposal of an active block is the only move of the lifecycle. -/
theorem lifecycleNeverGoesBack : Obligations.LifecycleNeverGoesBack := by
  intro s t hstep
  obtain hlife | ⟨hactive, hdisposed⟩ := step_life hstep
  · simp +contextual [hlife]
  · simp [hactive, hdisposed]

/-! ### Construction -/

/-- Settles O1: the good line by the registers construction writes, any other by its status. -/
theorem constructionInitialisesTheBlock : Obligations.ConstructionInitialisesTheBlock :=
  ⟨fun _ => rfl, fun line s => (construct_invalidConfiguration_iff line s).mpr⟩

theorem construct_out (line : LineFacts) (s : State) : (construct line s).2.out = s.out := by
  rw [construct]
  split <;> rfl

theorem construct_life_of_failed {line : LineFacts} (h : line.present = false ∨ line.outputMode = false) (s : State) :
    (construct line s).2.life = .unconfigured := by
  rcases h with h | h <;> simp [construct, h]

/-- Every command asks for a constructed block (60_exceptions.md R158). -/
theorem needsConstruction (i : Instr) : NeedsConstruction i := by
  cases hi : i.drivesLine with
  | true => exact (needsLine_of_drivesLine hi).1
  | false =>
    by_cases hdispose : i = .dispose
    · obtain ⟨-, hneeds, -⟩ := disposeReleasesTheLineOnce
      exact hdispose ▸ hneeds
    · exact needsConstruction_of_not_drivesLine hi hdispose

/-- Settles O3: construction fails without touching line or trace, and every command then asks in vain. -/
theorem failedConstructionRefusesEveryCommand : Obligations.FailedConstructionRefusesEveryCommand :=
  ⟨fun line s h => ⟨(construct_invalidConfiguration_iff line s).mpr h, construct_life_of_failed h s,
    construct_trace line s, construct_out line s⟩, needsConstruction⟩

/-! ### The order of SET_PULSE_LENGTH and SET_PROTOCOL -/

/-- Settles O28: SET_PROTOCOL writes the pulse length only if the one it finds is not positive. -/
theorem protocolDefaultNeedsANonPositivePulseFirst : Obligations.ProtocolDefaultNeedsANonPositivePulseFirst := by
  refine ⟨fun pr s hs hpulse => ⟨_, exec_setProtocol hs pr, ?_⟩,
    fun pr val s hs hval => ⟨_, _, exec_setPulseLength hs val, exec_setProtocol ?_ pr, ?_⟩,
    fun pr val s hs => ⟨_, _, exec_setProtocol hs pr, exec_setPulseLength ?_ val, ?_, rfl⟩⟩
  · rw [State.assignProtocol_pos s _ pr hpulse]
    exact ⟨rfl, rfl⟩
  · exact hs
  · rw [State.assignProtocol_nonpos { s.after [] s.out .done with pulse := val } _ pr hval]
    exact ⟨rfl, by cases pr <;> rfl⟩
  · simpa [State.answerOk_eq] using hs
  · exact s.assignProtocol_protocol _ pr

end Sys2Proof.Machine
